-- ==== Sys2Proof/Word.lean ====
section
/-! DEFINITION. The word types of the SCA core: the command port's word and the storage widths that R10 gives each
element of state (decision D13). An array is a fixed row of 256 whole entries; it has no bytes and no byte order (R32). -/

namespace Sys2Proof

/-- A command word `cmd[31:0]`, bit 0 the least significant (R46). -/
abbrev Word := BitVec 32

/-- The storage of WINDOW and DIVISOR: 9 bits, because the legal value 256 needs 9 (R10, R14). -/
abbrev ConfigReg := BitVec 9

/-- The storage of PHASE and BUFPOS: 8 bits (R10). It numbers the 256 entries of an array exactly. -/
abbrev Index := BitVec 8

/-- One entry of COS or SIN: 8 bits, two's complement (R10, R62). -/
abbrev ClockEntry := BitVec 8

/-- One entry of XB or YB: 16 bits, two's complement (R10, R18). -/
abbrev BufEntry := BitVec 16

/-- ACC_X or ACC_Y: 32 bits, two's complement (R15). -/
abbrev Acc := BitVec 32

/-- One internal array (COS, SIN, XB or YB): 256 whole entries of `w` bits, the physical capacity of R10.
Every entry is listed, so equal contents are equal data. -/
abbrev Bank (w : Nat) := Vector (BitVec w) 256

end Sys2Proof
end

