-- ==== Sys2Proof/Config.lean ====
section
/-! DEFINITION. What the spec leaves to a parameter or leaves open: the rounding of an exact half (TIE_ROUND, D11), the
values named for reset where the spec gives none, and the free values that stand for contents the spec calls
unspecified. A free value has no body, so nothing can be proved of which value it is. -/

namespace Sys2Proof

/-- The values TIE_ROUND may take (D11). -/
inductive TieRound where
  | awayFromZero
  | towardZero
  | toEven
  | up
  | down
  deriving DecidableEq, Repr

namespace Config

/-- TIE_ROUND at the default that R61 and D11 fix: an exact half goes to the integer farther from zero. -/
def tieRound : TieRound := .awayFromZero

/-! ### Reset values the model names

DESIGN CHOICE (log entry 1), unsafe: R105 leaves every element but VALID unspecified and R10 says never to take it for
zero, so each value named here is non-zero and, but for the two indices, one that no configured core ever holds. -/

/-- WINDOW at reset: 511, which is never stored by a CONSTRUCT (R14). DESIGN CHOICE, log entry 1. -/
def resetWindow : ConfigReg := 511
/-- DIVISOR at reset: 511, which is never stored by a CONSTRUCT (R14). DESIGN CHOICE, log entry 1. -/
def resetDivisor : ConfigReg := 511
/-- Every entry of COS and SIN at reset: -128, the value R62 says never occurs. DESIGN CHOICE, log entry 1. -/
def resetClockEntry : ClockEntry := 0x80
/-- Every entry of XB and YB at reset: -32768, outside the bound of R18. DESIGN CHOICE, log entry 1. -/
def resetBufEntry : BufEntry := 0x8000
/-- ACC_X and ACC_Y at reset: -2^31, the value R86 says `abs` never meets. DESIGN CHOICE, log entry 1. -/
def resetAcc : Acc := 0x80000000
/-- PHASE and BUFPOS at reset: 255. DESIGN CHOICE, log entry 1. -/
def resetIndex : Index := 0xFF

/-! ### Free values (log entries 2 and 3)

The first argument is the number of the draw (`State.draws`), so that two events draw unrelated contents; the second,
where there is one, is the index of the entry. -/

/-- What WINDOW holds after a pulse on `rst` (R105: unspecified). -/
opaque freeWindow : Nat → ConfigReg
/-- What DIVISOR holds after a pulse on `rst` (R105: unspecified). -/
opaque freeDivisor : Nat → ConfigReg
/-- What an entry of COS holds after a pulse on `rst` (R105), or at an index from DIVISOR on after a CONSTRUCT (R31). -/
opaque freeCos : Nat → Nat → ClockEntry
/-- What an entry of SIN holds after a pulse on `rst` (R105), or at an index from DIVISOR on after a CONSTRUCT (R31). -/
opaque freeSin : Nat → Nat → ClockEntry
/-- What an entry of XB holds after a pulse on `rst` (R105), or at an index from WINDOW on after a CONSTRUCT (R31). -/
opaque freeXB : Nat → Nat → BufEntry
/-- What an entry of YB holds after a pulse on `rst` (R105), or at an index from WINDOW on after a CONSTRUCT (R31). -/
opaque freeYB : Nat → Nat → BufEntry
/-- What ACC_X holds after a pulse on `rst` (R105: unspecified). -/
opaque freeAccX : Nat → Acc
/-- What ACC_Y holds after a pulse on `rst` (R105: unspecified). -/
opaque freeAccY : Nat → Acc
/-- What PHASE holds after a pulse on `rst` (R105: unspecified). -/
opaque freePhase : Nat → Index
/-- What BUFPOS holds after a pulse on `rst` (R105: unspecified). -/
opaque freeBufpos : Nat → Index

end Config
end Sys2Proof
end

