-- ==== Sys2Proof/Machine/ClockTable.lean ====
section
/-! DEFINITION. The Clock Table Generator (R60 to R66): the function that CONSTRUCT fills COS and SIN with. The spec
defines its values by real cosine and sine and a rounding (R60, R61) and leaves the mechanism free (R64); the integer
computation here is the one 40_clock_tables.md section 3 gives. It is not a command and has no state. -/

namespace Sys2Proof.Machine

/-- CLOCK_SCALE, the magnitude of the reference vector (R5). -/
def clockScale : Int := 127

/-- The integer an exact half `high - 1/2` goes to, between `high - 1` and `high` (R61, D11). -/
def resolveTie (tie : TieRound) (high : Int) : Int :=
  match tie with
  | .awayFromZero => if 0 < high then high else high - 1
  | .towardZero => if 0 < high then high - 1 else high
  | .toEven => if high % 2 = 0 then high else high - 1
  | .up => high
  | .down => high - 1

/-- RND of the rational `num / den`, for `0 < den`: the nearest integer, an exact half going where `tie` says (R61). -/
def rnd (tie : TieRound) (num den : Int) : Int :=
  if (2 * num + den) % (2 * den) = 0 then resolveTie tie ((2 * num + den) / (2 * den))
  else (2 * num + den) / (2 * den)

/-- S of 40_clock_tables.md section 3: the scale of the fixed-point angle and cosine. -/
def fixedScale : Int := 10 ^ 15

/-- PI_S of 40_clock_tables.md section 3: floor(π × 10^15). -/
def piScaled : Int := 3141592653589793

/-- The Taylor sum of cosine at the scaled angle `th`: `acc` plus `terms` further terms, the first of them `t`, the term
of degree 2k (40_clock_tables.md section 3; each division rounds toward minus infinity). -/
def cosSeries (th : Int) : (terms : Nat) → (k t acc : Int) → Int
  | 0, _, _, acc => acc
  | terms + 1, k, t, acc =>
    cosSeries th terms (k + 1)
      (-(t * th * th) / (fixedScale * fixedScale * (2 * k + 1) * (2 * k + 2))) (acc + t)

/-- Twice the cosine of `q` sixths of a turn (R65: the exact values and the exact halves). -/
def twiceCosSixths (q : Nat) : Int :=
  match q with
  | 0 => 2
  | 1 => 1
  | 2 => -1
  | 3 => -2
  | 4 => -1
  | _ => 1

/-- The cosine of `q` quarters of a turn (R65). -/
def cosQuarters (q : Nat) : Int :=
  match q with
  | 0 => 1
  | 1 => 0
  | 2 => -1
  | _ => 0

/-- RND(127 × cos(2π × i / d)) for `0 < d` and `i < d` (the function C of 40_clock_tables.md section 3). Only the sixths
of a turn can meet an exact half, so only they consult `tie` (R65). -/
def roundedCos (tie : TieRound) (d i : Nat) : Int :=
  if 6 * i % d = 0 then rnd tie (clockScale * twiceCosSixths (6 * i / d)) 2
  else if 4 * i % d = 0 then clockScale * cosQuarters (4 * i / d)
  else rnd .awayFromZero (clockScale * cosSeries (2 * piScaled * i / d) 40 0 fixedScale 0) fixedScale

/-- cos_table[i] of ClockTable(d) under a tie rule (R60, R61). -/
def cosTableEntry (tie : TieRound) (d i : Nat) : Int := roundedCos tie d i

/-- sin_table[i] of ClockTable(d) under a tie rule, read out of the cosine at four times the resolution (R60, R66). -/
def sinTableEntry (tie : TieRound) (d i : Nat) : Int := roundedCos tie (4 * d) ((4 * i + 3 * d) % (4 * d))

/-- cos_table[i] of this core's ClockTable(d) (R60). -/
def clockCos (d i : Nat) : Int := cosTableEntry Config.tieRound d i

/-- sin_table[i] of this core's ClockTable(d) (R60). -/
def clockSin (d i : Nat) : Int := sinTableEntry Config.tieRound d i

end Sys2Proof.Machine
end

