-- ==== Sys2Proof/Syntax.lean ====
section
/-! DEFINITION. The command set of R45: exactly three commands, one per row of spec/opcode_table.json. The operands are
the signed integers that R50 assembles from the word. A word that spells no command is no `Instr`; the decoder refuses
it and the step answers it (R52, R94). -/

namespace Sys2Proof

/-- The three commands (R45). -/
inductive Instr where
  /-- `CONSTRUCT window, divisor` (R47, R70 to R73) -/
  | construct (window divisor : Int)
  /-- `UPDATE sample` (R48, R75 to R81) -/
  | update (sample : Int)
  /-- `MAGNITUDE` (R49, R83 to R88) -/
  | magnitude
  deriving DecidableEq, Repr

end Sys2Proof
end

