-- ==== Sys2Proof/Machine/State.lean ====
section
/-! DEFINITION. The machine's state: the eleven elements of R10, and beside them the model's own three fields (the host's
side of the ports and the count of free draws). Its faults, its refusals, and the state right after power-up (R105). -/

namespace Sys2Proof.Machine

/-- `rsp_status` (R51). There are exactly five: the codes 5 to 15 are never produced (U8). -/
inductive Status where
  /-- 0: the command was performed -/
  | ok
  /-- 1: the source's configuration error (R91) -/
  | errConfig
  /-- 2: the source's domain violation (R92) -/
  | errDomain
  /-- 3: UPDATE or MAGNITUDE with VALID = 0 (R93) -/
  | errNotConfigured
  /-- 4: the word is no command (R94) -/
  | errIllegal
  deriving DecidableEq, Repr

/-- One response: `rsp_status[3:0]` and `rsp_data[31:0]` (R51). -/
structure Response where
  status : Status
  data : BitVec 32
  deriving DecidableEq, Repr

/-- What the host can do to the core, and nothing else (R107): present one command word, or pulse `rst`. -/
inductive HostEvent where
  | command (word : Word)
  | reset
  deriving DecidableEq, Repr

/-- A step that stops with a fault. None is reachable from reset (R22, R102). -/
inductive Fault where
  /-- Raised by UPDATE when VALID = 1 and PHASE is not below DIVISOR, or BUFPOS not below WINDOW: the array address
  spaces end at DIVISOR - 1 and WINDOW - 1 (R30), and R17 rules the state out. Safe: the model stops in a state the
  spec gives no meaning (U2, D21). -/
  | indexOutOfRange
  deriving DecidableEq, Repr

/-- A step that gives an instruction no meaning. None is reachable from reset (R22, R102). -/
inductive Refusal where
  /-- Raised only by an arm of exec whose instruction has no meaning yet. Safe. -/
  | notModelled (mnemonic : String)
  /-- Raised by UPDATE when VALID = 1 and WINDOW or DIVISOR is outside 1 to 256, a state R17 rules out and the spec
  gives no meaning (U2: refuse). Safe. -/
  | configOutOfRange
  /-- Raised by UPDATE when VALID = 1 and an exact result does not fit its storage, which R77 proves impossible from
  the invariants (U2: refuse, and invent no wrap-around). Safe. -/
  | resultOutOfRange
  deriving DecidableEq, Repr

/-- The state (R10). `draws`, `commands` and `responses` are the MODEL's own fields, not the spec's. -/
structure State where
  /-- VALID, the only flag (R13) -/
  valid : Bool
  /-- WINDOW (R14) -/
  window : ConfigReg
  /-- DIVISOR (R14) -/
  divisor : ConfigReg
  /-- COS[0..255] (R10, R30) -/
  cos : Bank 8
  /-- SIN[0..255] (R10, R30) -/
  sin : Bank 8
  /-- XB[0..255] (R10, R30) -/
  xb : Bank 16
  /-- YB[0..255] (R10, R30) -/
  yb : Bank 16
  /-- ACC_X (R15) -/
  accX : Acc
  /-- ACC_Y (R15) -/
  accY : Acc
  /-- PHASE (R16) -/
  phase : Index
  /-- BUFPOS (R16) -/
  bufpos : Index
  /-- The model's own: how many times unspecified contents have been drawn (log entries 2 and 3). -/
  draws : Nat
  /-- The model's own: what the host will still present, next event first (R12, R117; log entry 4). -/
  commands : List HostEvent
  /-- The model's own: the responses returned so far, oldest first, the observable outcome of a run (R117). -/
  responses : List Response
  deriving DecidableEq, Repr

/-- The machine right after reset, as power-up leaves it (R101, R105, R106): VALID = 0, no response pending, and the
host has presented nothing. Every other element is unspecified there; the values are the model's (log entry 1). -/
def State.reset : State where
  valid := false
  window := Config.resetWindow
  divisor := Config.resetDivisor
  cos := Vector.replicate 256 Config.resetClockEntry
  sin := Vector.replicate 256 Config.resetClockEntry
  xb := Vector.replicate 256 Config.resetBufEntry
  yb := Vector.replicate 256 Config.resetBufEntry
  accX := Config.resetAcc
  accY := Config.resetAcc
  phase := Config.resetIndex
  bufpos := Config.resetIndex
  draws := 0
  commands := []
  responses := []

end Sys2Proof.Machine
end

