-- ==== Sys2Proof/Machine/Flags.lean ====
section
/-! DEFINITION. VALID, the only flag of the core (R13). There are no condition codes. -/

namespace Sys2Proof.Machine

/-- VALID <- 1, by a CONSTRUCT that succeeds (R71). -/
def State.setValid (s : State) : State := { s with valid := true }

/-- VALID <- 0, by a CONSTRUCT that fails (R72). -/
def State.clearValid (s : State) : State := { s with valid := false }

/-- The flag as UPDATE and MAGNITUDE read it: is the core configured? (R13, R93) -/
def State.configured (s : State) : Bool := s.valid

end Sys2Proof.Machine
end

