-- ==== Sys2Proof/Machine/Operands.lean ====
section
/-! DEFINITION. The checks on the operands of the commands (R5, R70, R76). The operands themselves are assembled by the
decoder (R50); a command names no register (R46), so there are no other operand forms. -/

namespace Sys2Proof.Machine

/-- WMAX, the largest legal `window` (R5). -/
def windowMax : Int := 256
/-- DMAX, the largest legal `divisor` (R5). -/
def divisorMax : Int := 256
/-- SAMPLE_MIN (R5). -/
def sampleMin : Int := -128
/-- SAMPLE_MAX (R5). -/
def sampleMax : Int := 127

/-- The operand check of CONSTRUCT, on the sign-extended operands and on nothing else (R70). -/
def constructLegal (window divisor : Int) : Bool :=
  1 ≤ window && window ≤ windowMax && 1 ≤ divisor && divisor ≤ divisorMax

/-- The domain check of UPDATE: the sample is in [-128, 127] (R76). -/
def sampleLegal (sample : Int) : Bool := sampleMin ≤ sample && sample ≤ sampleMax

end Sys2Proof.Machine
end

