-- ==== Sys2Proof/Machine/Ops.lean ====
section
/-! DEFINITION. The operations the commands share: the response port (R51), the error response, which is all this core
has of an exception (R90, R97, R98), access to the internal arrays (R30, R34), the circular indices (R40), exact
narrowing into storage (R77), and reset (R105). -/

namespace Sys2Proof.Machine

/-! ### The response port -/

/-- The number a status has on `rsp_status[3:0]` (R51, R90). -/
def Status.code : Status → BitVec 4
  | .ok => 0
  | .errConfig => 1
  | .errDomain => 2
  | .errNotConfigured => 3
  | .errIllegal => 4

/-- The 36-bit word {rsp_status, rsp_data} a platform may pack a response into (R51). -/
def Response.packed (r : Response) : BitVec 36 := r.status.code ++ r.data

/-- Return one response to the host (R51). -/
def State.respond (r : Response) (s : State) : State := { s with responses := s.responses ++ [r] }

/-- The command was performed: status OK with this data (R51). -/
def answerOk (data : BitVec 32) (s : State) : Host.Outcome State Fault Refusal :=
  .next (s.respond ⟨.ok, data⟩)

/-- `raise <Error>` (00_scope.md section 6): the command ends at once with the error's status and data 0. There is no
trap entry: nothing is saved, no mode changes and control goes nowhere (R97). There is nothing to return from (R98): the
next command is accepted as usual. -/
def raiseError (e : Status) (s : State) : Host.Outcome State Fault Refusal :=
  .next (s.respond ⟨e, 0⟩)

/-! ### Arrays -/

/-- An array whose entry `i` is `f i`. -/
def Bank.tabulate {w : Nat} (f : Nat → BitVec w) : Bank w := ⟨⟨(List.range 256).map f⟩, by simp⟩

/-- Entry `i` of an array, `A[i]`: a whole entry (R32). Every 8-bit index numbers an entry (R10). -/
def Bank.entry {w : Nat} (a : Bank w) (i : Index) : BitVec w := a[i.toNat]'i.isLt

/-- `MemRead(A, i)` in an array whose address space is `0 .. len - 1` (R30); there is no entry beyond it. -/
def memRead {w : Nat} (a : Bank w) (len : Nat) (i : Index) : Option (BitVec w) :=
  if i.toNat < len then some (Bank.entry a i) else none

/-- `MemWrite(A, i, v)`: the whole entry `i` takes the value `v`, every other entry stays (R32). -/
def memWrite {w : Nat} (a : Bank w) (i : Index) (v : BitVec w) : Bank w := a.set i.toNat v i.isLt

/-- The array a CONSTRUCT leaves: entries below `len` as given, entries from `len` on unspecified (R31, R71). -/
def Bank.fill {w : Nat} (len : Nat) (value beyond : Nat → BitVec w) : Bank w :=
  Bank.tabulate fun i => if i < len then value i else beyond i

/-! ### Indices and widths -/

/-- `(i + 1) mod modulus`: the next circular index (R16, R40). The sum needs 9 bits (R77); the result fits 8 when the
modulus is 1 to 256. -/
def nextIndex (i : Index) (modulus : ConfigReg) : Index := BitVec.ofNat 8 ((i.toNat + 1) % modulus.toNat)

/-- Store an exact integer in `w` bits of two's complement, if they hold it: nothing is truncated, wrapped or saturated
(R77, U2). -/
def narrow (w : Nat) (v : Int) : Option (BitVec w) :=
  if (BitVec.ofInt w v).toInt = v then some (BitVec.ofInt w v) else none

/-! ### Reset -/

/-- A pulse on `rst` (R105): VALID = 0, every other element unspecified, no response. Nothing of the old state survives
but what is the host's (the commands it has still to present, the responses it has had). -/
def State.pulseReset (s : State) : State where
  valid := false
  window := Config.freeWindow s.draws
  divisor := Config.freeDivisor s.draws
  cos := Bank.tabulate (Config.freeCos s.draws)
  sin := Bank.tabulate (Config.freeSin s.draws)
  xb := Bank.tabulate (Config.freeXB s.draws)
  yb := Bank.tabulate (Config.freeYB s.draws)
  accX := Config.freeAccX s.draws
  accY := Config.freeAccY s.draws
  phase := Config.freePhase s.draws
  bufpos := Config.freeBufpos s.draws
  draws := s.draws + 1
  commands := s.commands
  responses := s.responses

end Sys2Proof.Machine
end

