-- ==== Sys2Proof/Machine/Construct.lean ====
section
/-! DEFINITION. CONSTRUCT (R70 to R73): the construction of the filter. -/

namespace Sys2Proof.Machine

/-- WINDOW <- window and DIVISOR <- divisor, both together (R14, R71). -/
def State.setConfig (window divisor : Nat) (s : State) : State :=
  { s with window := BitVec.ofNat 9 window, divisor := BitVec.ofNat 9 divisor }

/-- COS and SIN take ClockTable(divisor) at the indices below it (R63, R71); the entries from `divisor` on are
unspecified (R31). -/
def State.fillTables (divisor : Nat) (s : State) : State :=
  { s with
    cos := Bank.fill divisor (fun i => BitVec.ofInt 8 (clockCos divisor i)) (Config.freeCos s.draws)
    sin := Bank.fill divisor (fun i => BitVec.ofInt 8 (clockSin divisor i)) (Config.freeSin s.draws) }

/-- XB and YB take 0 at the indices below `window` (R71); the entries from `window` on are unspecified (R31). -/
def State.zeroBuffers (window : Nat) (s : State) : State :=
  { s with
    xb := Bank.fill window (fun _ => 0) (Config.freeXB s.draws)
    yb := Bank.fill window (fun _ => 0) (Config.freeYB s.draws) }

/-- ACC_X, ACC_Y, PHASE and BUFPOS <- 0 (R71). -/
def State.clearSums (s : State) : State := { s with accX := 0, accY := 0, phase := 0, bufpos := 0 }

/-- The unspecified contents of this step have been drawn. -/
def State.countDraw (s : State) : State := { s with draws := s.draws + 1 }

/-- The state writes of a CONSTRUCT that succeeds (R71). -/
def State.construct (window divisor : Nat) (s : State) : State :=
  (((((s.setConfig window divisor).fillTables divisor).zeroBuffers window).clearSums).setValid).countDraw

/-- CONSTRUCT window, divisor: with legal operands the filter is built and the answer is OK (R71); otherwise VALID is
cleared, nothing else is written, and the answer is ERR_CONFIG (R72). It never looks at VALID (R70, R73). -/
def execConstruct (window divisor : Int) (s : State) : Host.Outcome State Fault Refusal :=
  if constructLegal window divisor then answerOk 0 (s.construct window.toNat divisor.toNat)
  else raiseError .errConfig s.clearValid

end Sys2Proof.Machine
end

