-- ==== Sys2Proof/Machine/Magnitude.lean ====
section
/-! DEFINITION. MAGNITUDE (R83 to R88): the sqrt-free magnitude of the accumulator. -/

namespace Sys2Proof.Machine

/-- hi, the larger of the two absolute values (R83 step 2). -/
def magHi (x y : Int) : Nat := max x.natAbs y.natAbs
/-- lo, the smaller of the two absolute values (R83 step 2). -/
def magLo (x y : Int) : Nat := min x.natAbs y.natAbs
/-- opt1 = 28 × hi + 17 × lo (R83 step 3). -/
def magOpt1 (x y : Int) : Nat := 28 * magHi x y + 17 * magLo x y
/-- opt2 = 32 × hi (R83 step 3). -/
def magOpt2 (x y : Int) : Nat := 32 * magHi x y

/-- The magnitude approximation max(opt1, opt2) >> 5, on exact integers (R83 step 4). -/
def magnitude (x y : Int) : Nat := max (magOpt1 x y) (magOpt2 x y) >>> 5

/-- MAGNITUDE: ERR_NOT_CONFIGURED if VALID = 0 (R93), else OK with the result zero-extended to 32 bits; no element of the
state changes (R83, R84). -/
def execMagnitude (s : State) : Host.Outcome State Fault Refusal :=
  if s.configured then answerOk (BitVec.ofNat 32 (magnitude s.accX.toInt s.accY.toInt)) s
  else raiseError .errNotConfigured s

end Sys2Proof.Machine
end

