-- ==== Sys2Proof/Machine/Update.lean ====
section
/-! DEFINITION. UPDATE (R75 to R81): one sample into the filter. -/

namespace Sys2Proof.Machine

/-- WINDOW and DIVISOR hold legal values, as they do in every configured core (R14, R17). -/
def State.configLegal (s : State) : Bool :=
  1 ≤ s.window.toNat && s.window.toNat ≤ 256 && 1 ≤ s.divisor.toNat && s.divisor.toNat ≤ 256

/-- Steps 3 to 5 of one lane (R75, R80): the vectorized sample, and the accumulator after the evicted entry is subtracted
and the vectorized sample added, each exact in its storage (R77), or nothing if one does not fit. -/
def laneUpdate (sample : Int) (clock : ClockEntry) (evicted : BufEntry) (acc : Acc) : Option (BufEntry × Acc) :=
  match narrow 16 (sample * clock.toInt), narrow 32 (acc.toInt - evicted.toInt) with
  | some vec, some lowered =>
    match narrow 32 (lowered.toInt + vec.toInt) with
    | some raised => some (vec, raised)
    | none => none
  | _, _ => none

/-- The state writes of steps 2, 5, 6 and 7, from the two lanes' results (R75). -/
def State.writeLanes (x y : BufEntry × Acc) (s : State) : State :=
  { s with
    phase := nextIndex s.phase s.divisor
    accX := x.2
    accY := y.2
    xb := memWrite s.xb s.bufpos x.1
    yb := memWrite s.yb s.bufpos y.1
    bufpos := nextIndex s.bufpos s.window }

/-- The seven steps on a configured core with a legal sample (R75). The clock entries are read at the old PHASE and the
buffer entries at the old BUFPOS. It stops only in states that R17 to R20 rule out (U2). -/
def admitSample (sample : Int) (s : State) : Host.Outcome State Fault Refusal :=
  if s.configLegal then
    match memRead s.cos s.divisor.toNat s.phase, memRead s.sin s.divisor.toNat s.phase,
        memRead s.xb s.window.toNat s.bufpos, memRead s.yb s.window.toNat s.bufpos with
    | some clockX, some clockY, some oldX, some oldY =>
      match laneUpdate sample clockX oldX s.accX, laneUpdate sample clockY oldY s.accY with
      | some x, some y => answerOk 0 (s.writeLanes x y)
      | _, _ => .refused .resultOutOfRange
    | _, _, _, _ => .fault .indexOutOfRange
  else .refused .configOutOfRange

/-- UPDATE sample: ERR_NOT_CONFIGURED if VALID = 0 (R93), else ERR_DOMAIN if the sample is outside [-128, 127] (R76), in
that order (R96) and with no change of state; else the seven steps (R75). -/
def execUpdate (sample : Int) (s : State) : Host.Outcome State Fault Refusal :=
  if s.configured then
    if sampleLegal sample then admitSample sample s else raiseError .errDomain s
  else raiseError .errNotConfigured s

end Sys2Proof.Machine
end

