-- ==== Sys2Proof/Machine/Dispatch.lean ====
section
/-! DEFINITION. One arm per command, each one call of its meaning. -/

namespace Sys2Proof.Machine

def exec (i : Instr) (s : State) : Host.Outcome State Fault Refusal :=
  match i with
  | .construct window divisor => Sys2Proof.Machine.execConstruct window divisor s
  | .update sample => Sys2Proof.Machine.execUpdate sample s
  | .magnitude => Sys2Proof.Machine.execMagnitude s

end Sys2Proof.Machine
end

