-- ==== Sys2Proof/WellFormed.lean ====
section
/-! DEFINITION. Which commands have an encoding (R53, R55): each operand must be a value its field can hold. These are
wider than the legal ranges on purpose (R47, R48); an operand that is encodable but not legal is answered with an error
response, not refused here. -/

namespace Sys2Proof

/-- A CONSTRUCT operand fits its 12-bit two's-complement field: -2048 to 2047 (R47). -/
def Instr.fits12 (v : Int) : Bool := -2048 ≤ v && v ≤ 2047

/-- An UPDATE operand fits its 16-bit two's-complement field: -32768 to 32767 (R48). -/
def Instr.fits16 (v : Int) : Bool := -32768 ≤ v && v ≤ 32767

/-- The command can be encoded (R53: the in-range operands of the round trip). -/
def Instr.wellFormed : Instr → Bool
  | .construct window divisor => Instr.fits12 window && Instr.fits12 divisor
  | .update sample => Instr.fits16 sample
  | .magnitude => true

end Sys2Proof
end

