-- ==== Sys2Proof/Decode.lean ====
section
/-! DEFINITION. Decoding a command word (R46 to R54) and encoding a command (R53). Decoding is total, needs no state, and
refuses by name every word that R52 calls illegal. -/

namespace Sys2Proof

/-- Why a word is illegal (R52). -/
inductive DecodeError where
  /-- OP is 0x00 or 0x04 to 0xFF -/
  | noSuchOpcode (op : BitVec 8)
  /-- OP = 0x02 and the must-be-zero field Z8 = cmd[23:16] is not zero -/
  | updateZ8NotZero
  /-- OP = 0x03 and the must-be-zero field Z24 = cmd[23:0] is not zero -/
  | magnitudeZ24NotZero
  deriving DecidableEq, Repr

/-- OP = cmd[31:24] (R46). -/
def opField (cmd : Word) : BitVec 8 := cmd.extractLsb' 24 8
/-- WIN = cmd[23:12] (R47). -/
def winField (cmd : Word) : BitVec 12 := cmd.extractLsb' 12 12
/-- DIV = cmd[11:0] (R47). -/
def divField (cmd : Word) : BitVec 12 := cmd.extractLsb' 0 12
/-- Z8 = cmd[23:16] (R46, format U). -/
def z8Field (cmd : Word) : BitVec 8 := cmd.extractLsb' 16 8
/-- SAMPLE = cmd[15:0] (R48). -/
def sampleField (cmd : Word) : BitVec 16 := cmd.extractLsb' 0 16
/-- Z24 = cmd[23:0] (R46, format M). -/
def z24Field (cmd : Word) : BitVec 24 := cmd.extractLsb' 0 24

/-- `sext_N(v)`: an N-bit field read as a two's-complement signed integer (00_scope.md section 6, R50). -/
def sext {n : Nat} (v : BitVec n) : Int := v.toInt

/-- The command a word spells, in the order of tests of R53, or the name of what makes it illegal (R52). -/
def decode (cmd : Word) : Except DecodeError Instr :=
  if opField cmd = 0x01 then .ok (.construct (sext (winField cmd)) (sext (divField cmd)))
  else if opField cmd = 0x02 then
    if z8Field cmd = 0 then .ok (.update (sext (sampleField cmd))) else .error .updateZ8NotZero
  else if opField cmd = 0x03 then
    if z24Field cmd = 0 then .ok .magnitude else .error .magnitudeZ24NotZero
  else .error (.noSuchOpcode (opField cmd))

/-- The instruction the decoder reads from a row's bits. Every command is one 32-bit word with bit 0 its least
significant bit (R46, R54), so bits above `nbits` are zero and a longer text is no command. -/
def decodeTableWord (nbits w : Nat) : Option Instr :=
  if nbits ≤ 32 then
    match decode (BitVec.ofNat 32 (w % 2 ^ nbits)) with
    | .ok i => some i
    | .error _ => none
  else none

/-- The word of a command: its opcode and fields side by side, as the formats of R46 lay them out (R53). -/
def encode : Instr → Word
  | .construct window divisor => (0x01 : BitVec 8) ++ BitVec.ofInt 12 window ++ BitVec.ofInt 12 divisor
  | .update sample => (0x02 : BitVec 8) ++ (0x00 : BitVec 8) ++ BitVec.ofInt 16 sample
  | .magnitude => (0x03 : BitVec 8) ++ (0x000000 : BitVec 24)

end Sys2Proof
end

