-- ==== Sys2Proof/Machine/HostPort.lean ====
section
/-! DEFINITION. The command port and the reset input (R107): what one step finds there. One word is accepted whole, and
decoded before any state is looked at (R53, R96). -/

namespace Sys2Proof.Machine

/-- What the ports offer at a step. -/
inductive Offer where
  /-- the host presents nothing -/
  | idle
  /-- a pulse on `rst`, between commands (R105) -/
  | reset (s : State)
  /-- a word that spells no command (R52) -/
  | illegal (s : State)
  /-- a command -/
  | command (i : Instr) (s : State)

/-- Take the host's next event off the ports; the state carried with it is the one after the event is taken. -/
def State.accept (s : State) : Offer :=
  match s.commands with
  | [] => .idle
  | .reset :: rest => .reset { s with commands := rest }
  | .command word :: rest =>
    match decode word with
    | .ok i => .command i { s with commands := rest }
    | .error _ => .illegal { s with commands := rest }

/-- A word that spells no command performs nothing and is answered ERR_ILLEGAL, configured or not (R94). -/
def answerIllegal (s : State) : Host.Outcome State Fault Refusal := raiseError .errIllegal s

/-- A pulse on `rst` gives no response (R105). -/
def takeReset (s : State) : Host.Outcome State Fault Refusal := .next s.pulseReset

/-- With nothing presented the core waits: it never acts unprompted (R99, R106), and nothing changes. -/
def waitForHost (s : State) : Host.Outcome State Fault Refusal := .next s

/-- The host presents these bits as its next command word, before whatever it had in mind (R46, R107). -/
def State.present (nbits w : Nat) (s : State) : State :=
  { s with commands := .command (BitVec.ofNat 32 (w % 2 ^ nbits)) :: s.commands }

end Sys2Proof.Machine
end

