-- ==== Sys2Proof/Machine/Step.lean ====
section
/-! DEFINITION. One step: the core takes one event from its ports and handles it whole (R36, R107, and the procedure
after R96). -/

namespace Sys2Proof.Machine

/-- One atomic step (R36). -/
def step (s : State) : Host.Outcome State Fault Refusal :=
  match s.accept with
  | .idle => waitForHost s
  | .reset s' => takeReset s'
  | .illegal s' => answerIllegal s'
  | .command i s' => exec i s'

/-- `s` with these bits presented on the command port as the next command word. -/
def State.withFetchWord (s : State) (nbits w : Nat) : State := s.present nbits w

end Sys2Proof.Machine
end

