-- ==== Sys2Proof/Machine/Assembler.lean ====
section
/-! DEFINITION. The text in which the spec writes command streams (R55): one command per line, two directives, and a
comment from `;` on. It is the host's notation; nothing in the core reads text. -/

namespace Sys2Proof.Machine

/-- Why a line is an assembly error, and no core error (R55). -/
inductive AsmError where
  /-- the line is none of the five forms -/
  | badLine
  /-- an operand, or a `.word` value, that its field cannot hold -/
  | cannotEncode
  deriving DecidableEq, Repr

/-- One line of a command stream (R55). -/
inductive AsmLine where
  /-- `CONSTRUCT w, d`, `UPDATE s` or `MAGNITUDE` -/
  | command (i : Instr)
  /-- `.word v`: a raw command word -/
  | word (value : Nat)
  /-- `.reset`: the host pulses the reset input -/
  | reset
  /-- nothing but blanks and a comment -/
  | empty
  deriving DecidableEq, Repr

/-! ### Numbers -/

/-- The value of a digit of the given base. -/
def digitValue (base : Nat) (c : Char) : Option Nat :=
  let v :=
    if '0'.toNat ≤ c.toNat ∧ c.toNat ≤ '9'.toNat then c.toNat - '0'.toNat
    else if 'a'.toNat ≤ c.toNat ∧ c.toNat ≤ 'f'.toNat then c.toNat - 'a'.toNat + 10
    else if 'A'.toNat ≤ c.toNat ∧ c.toNat ≤ 'F'.toNat then c.toNat - 'A'.toNat + 10
    else base
  if v < base then some v else none

/-- The digits of a number, most significant first, after those already read. -/
def readDigits (base acc : Nat) : List Char → Option Nat
  | [] => some acc
  | c :: rest =>
    match digitValue base c with
    | some v => readDigits base (acc * base + v) rest
    | none => none

/-- A number without a sign: decimal, or hexadecimal after `0x` (R55). -/
def readNat : List Char → Option Nat
  | '0' :: 'x' :: c :: rest => readDigits 16 0 (c :: rest)
  | c :: rest => readDigits 10 0 (c :: rest)
  | [] => none

/-- An operand: a signed decimal integer, or hexadecimal after `0x` (R55). -/
def readInt : List Char → Option Int
  | '-' :: c :: rest => (readDigits 10 0 (c :: rest)).map fun n => -(n : Int)
  | text => (readNat text).map Int.ofNat

/-! ### Lines -/

/-- The tokens of a line: runs of characters parted by blanks, and each comma by itself. -/
def tokens : List Char → (current : List Char) → List (List Char)
  | [], current => if current.isEmpty then [] else [current]
  | c :: rest, current =>
    let done := if current.isEmpty then [] else [current]
    if c = ' ' ∨ c = '\t' ∨ c = '\r' then done ++ tokens rest []
    else if c = ',' then done ++ [','] :: tokens rest []
    else tokens rest (current ++ [c])

/-- One line of text, its comment dropped (R55). -/
def parseLine (text : List Char) : Except AsmError AsmLine :=
  match tokens (text.takeWhile (· != ';')) [] with
  | [] => .ok .empty
  | [name] =>
    if name = "MAGNITUDE".toList then .ok (.command .magnitude)
    else if name = ".reset".toList then .ok .reset
    else .error .badLine
  | [name, operand] =>
    if name = "UPDATE".toList then
      match readInt operand with
      | some sample => .ok (.command (.update sample))
      | none => .error .badLine
    else if name = ".word".toList then
      match readNat operand with
      | some value => .ok (.word value)
      | none => .error .badLine
    else .error .badLine
  | [name, first, [','], second] =>
    if name = "CONSTRUCT".toList then
      match readInt first, readInt second with
      | some window, some divisor => .ok (.command (.construct window divisor))
      | _, _ => .error .badLine
    else .error .badLine
  | _ => .error .badLine

/-- What the host does at a line: an operand or value that does not fit is an assembly error (R55). -/
def assembleLine : AsmLine → Except AsmError (List HostEvent)
  | .command i => if i.wellFormed then .ok [.command (encode i)] else .error .cannotEncode
  | .word value => if value < 2 ^ 32 then .ok [.command (BitVec.ofNat 32 value)] else .error .cannotEncode
  | .reset => .ok [.reset]
  | .empty => .ok []

/-- The lines of a text. -/
def splitLines : List Char → (current : List Char) → List (List Char)
  | [], current => [current]
  | c :: rest, current => if c = '\n' then current :: splitLines rest [] else splitLines rest (current ++ [c])

/-- The events of a list of lines, in order, or the first error. -/
def assembleLines : List (List Char) → Except AsmError (List HostEvent)
  | [] => .ok []
  | line :: rest =>
    match parseLine line with
    | .error e => .error e
    | .ok parsed =>
      match assembleLine parsed, assembleLines rest with
      | .error e, _ => .error e
      | _, .error e => .error e
      | .ok first, .ok others => .ok (first ++ others)

/-- The events a command stream in the syntax of R55 stands for. -/
def assemble (text : String) : Except AsmError (List HostEvent) := assembleLines (splitLines text.toList [])

end Sys2Proof.Machine
end

