-- ==== Sys2Proof/Safety.lean ====
section
/-! DEFINITION. What counts as a safe machine, in the terms the claims use: the invariants of a configured core (R17 to
R21), what two runs must agree on when only unspecified contents differ (R22, U1), the closed form of the accumulator
(R23), and what it means for an integer to be the rounding of a real number (R61). -/

namespace Sys2Proof.Machine

/-! ### The invariants of a configured core -/

/-- The sum of an array's entries at the indices below `n`, each read as a signed integer. -/
def Bank.prefixSum {w : Nat} (a : Bank w) (n : Nat) : Int :=
  ∑ i ∈ Finset.range n, (Bank.entry a (BitVec.ofNat 8 i)).toInt

/-- R17: 1 <= WINDOW, DIVISOR <= 256, PHASE < DIVISOR and BUFPOS < WINDOW. -/
abbrev IndexRanges (s : State) : Prop :=
  1 ≤ s.window.toNat ∧ s.window.toNat ≤ 256 ∧ 1 ≤ s.divisor.toNat ∧ s.divisor.toNat ≤ 256 ∧
    s.phase.toNat < s.divisor.toNat ∧ s.bufpos.toNat < s.window.toNat

/-- R18: the buffer entries below WINDOW are in [-16256, 16256]. -/
abbrev BufferBounds (s : State) : Prop :=
  ∀ j : Index, j.toNat < s.window.toNat →
    (-16256 ≤ (Bank.entry s.xb j).toInt ∧ (Bank.entry s.xb j).toInt ≤ 16256) ∧
      (-16256 ≤ (Bank.entry s.yb j).toInt ∧ (Bank.entry s.yb j).toInt ≤ 16256)

/-- R19: each accumulator equals the sum of its buffer's entries below WINDOW. -/
abbrev AccExact (s : State) : Prop :=
  s.accX.toInt = Bank.prefixSum s.xb s.window.toNat ∧ s.accY.toInt = Bank.prefixSum s.yb s.window.toNat

/-- R20: |ACC_X| and |ACC_Y| are at most WINDOW × 16256. -/
abbrev AccBound (s : State) : Prop :=
  s.accX.toInt.natAbs ≤ s.window.toNat * 16256 ∧ s.accY.toInt.natAbs ≤ s.window.toNat * 16256

/-- R21: the table entries below DIVISOR are those of ClockTable(DIVISOR). -/
abbrev TablesGenerated (s : State) : Prop :=
  ∀ j : Index, j.toNat < s.divisor.toNat →
    (Bank.entry s.cos j).toInt = clockCos s.divisor.toNat j.toNat ∧
      (Bank.entry s.sin j).toInt = clockSin s.divisor.toNat j.toNat

/-- R17 to R21 hold whenever VALID = 1 (section 7 of 10_state.md). -/
abbrev FilterInv (s : State) : Prop :=
  s.valid = true → IndexRanges s ∧ BufferBounds s ∧ AccExact s ∧ AccBound s ∧ TablesGenerated s

/-- The signed 32-bit range (00_scope.md section 6). -/
abbrev Fits32 (v : Int) : Prop := -2 ^ 31 ≤ v ∧ v < 2 ^ 31

/-! ### What two states must agree on -/

/-- The eleven elements of R10 are bit for bit the same. -/
abbrev SameElements (s t : State) : Prop :=
  s.valid = t.valid ∧ s.window = t.window ∧ s.divisor = t.divisor ∧ s.cos = t.cos ∧ s.sin = t.sin ∧ s.xb = t.xb ∧
    s.yb = t.yb ∧ s.accX = t.accX ∧ s.accY = t.accY ∧ s.phase = t.phase ∧ s.bufpos = t.bufpos

/-- Two arrays agree at every index below `n`. -/
abbrev SameEntries {w : Nat} (n : Nat) (a b : Bank w) : Prop :=
  ∀ j : Index, j.toNat < n → Bank.entry a j = Bank.entry b j

/-- Two filters agree on all that the spec gives a configured core a value for: everything but the array entries from
DIVISOR and from WINDOW on, which are unspecified and unobservable (R31). -/
abbrev SameFilter (s t : State) : Prop :=
  s.window = t.window ∧ s.divisor = t.divisor ∧
    SameEntries s.divisor.toNat s.cos t.cos ∧ SameEntries s.divisor.toNat s.sin t.sin ∧
    SameEntries s.window.toNat s.xb t.xb ∧ SameEntries s.window.toNat s.yb t.yb ∧
    s.accX = t.accX ∧ s.accY = t.accY ∧ s.phase = t.phase ∧ s.bufpos = t.bufpos

/-- Two states no host can tell apart: the same VALID, the same filter if there is one, the same commands still to come
and the same responses so far. Unspecified contents and the count of draws may differ. -/
abbrev Indistinguishable (s t : State) : Prop :=
  s.valid = t.valid ∧ (s.valid = true → SameFilter s t) ∧ s.commands = t.commands ∧ s.responses = t.responses

/-- Two outcomes no host can tell apart: indistinguishable next states, or the same stop. -/
def SameOutcome (a b : Host.Outcome State Fault Refusal) : Prop :=
  match a, b with
  | .next s, .next t => Indistinguishable s t
  | .fault f, .fault g => f = g
  | .refused f, .refused g => f = g
  | _, _ => False

/-! ### Fields of a word, as the notation of 00_scope.md section 6 reads them -/

/-- `sext_N(v)` on the number of a field: v if v < 2^(N-1), else v - 2^N. -/
def signedField (n v : Nat) : Int := if v < 2 ^ (n - 1) then v else v - 2 ^ n

/-! ### Runs of commands -/

/-- The words of a list of commands, as the host presents them (R53, R107). -/
def presented (is : List Instr) : List HostEvent := is.map fun i => .command (encode i)

/-- The samples that the words of a command stream feed to a configured core, in order: those of the UPDATE words whose
sample is in [-128, 127]. Words answered with an error response do not count (R23). -/
def acceptedSamples : List Word → List Int
  | [] => []
  | word :: rest =>
    match decode word with
    | .ok (.update sample) => if sampleLegal sample then sample :: acceptedSamples rest else acceptedSamples rest
    | _ => acceptedSamples rest

/-- No word of the stream is a CONSTRUCT. -/
def noConstruct (words : List Word) : Prop := ∀ word ∈ words, ∀ w d, decode word ≠ .ok (.construct w d)

/-- Every CONSTRUCT of the stream has an operand outside 1 to 256, so that none of them succeeds (R70). -/
def noLegalConstruct (words : List Word) : Prop :=
  ∀ word ∈ words, ∀ w d, decode word = .ok (.construct w d) → w < 1 ∨ 256 < w ∨ d < 1 ∨ 256 < d

/-- The windowed correlation of R23: the sum over k from max(0, n - window) to n - 1 of s_k × table[k mod divisor], with
n the number of samples. -/
def windowedSum (table : Nat → Int) (window divisor : Nat) (samples : List Int) : Int :=
  ∑ k ∈ Finset.Ico (samples.length - window) samples.length, samples.getD k 0 * table (k % divisor)

/-! ### Rounding of a real number -/

/-- `n` is the rounding of the real `x` that R61 describes: the nearest integer, and of two equally near the one farther
from zero. -/
def IsRounding (x : ℝ) (n : ℤ) : Prop := |x - n| ≤ 1 / 2 ∧ (|x - n| = 1 / 2 → |x| < |(n : ℝ)|)

end Sys2Proof.Machine
end

