-- ==== Sys2Proof/Certificates/Slice0/Obligations.lean ====
section
/-! DEFINITION. The statements for the provers: what the numbered rules of spec/ say the core does, stated of this
model. Where a statement rests on the model's own choice, its docstring says so and names the log entry. -/

open Sys2Proof Sys2Proof.Machine

/-! ### Encoding (30_encoding.md) -/

/-- R47, R48, R49, R50: a word under a command's mask and match decodes to that command, its operands the sign-extended
fields WIN = cmd[23:12], DIV = cmd[11:0] and SAMPLE = cmd[15:0], each in its field's range; with R50's examples. -/
def Obligations.MatchedWordsDecodeToTheirCommand : Prop :=
  (∀ word : Word,
    (word &&& 0xFF000000 = 0x01000000 →
      decode word =
        .ok (.construct (signedField 12 (word.toNat / 2 ^ 12 % 2 ^ 12)) (signedField 12 (word.toNat % 2 ^ 12)))) ∧
    (word &&& 0xFFFF0000 = 0x02000000 → decode word = .ok (.update (signedField 16 (word.toNat % 2 ^ 16)))) ∧
    (word &&& 0xFFFFFFFF = 0x03000000 → decode word = .ok .magnitude)) ∧
  (∀ v < 2 ^ 12, -2048 ≤ signedField 12 v ∧ signedField 12 v ≤ 2047) ∧
  (∀ v < 2 ^ 16, -32768 ≤ signedField 16 v ∧ signedField 16 v ≤ 32767) ∧
  [0x004, 0x100, 0x101, 0x000, 0xFFF, 0x800].map (signedField 12) = [4, 256, 257, 0, -1, -2048] ∧
  [0x0064, 0xFF9C, 0x007F, 0x0080, 0xFF80, 0xFF7F].map (signedField 16) = [100, -100, 127, 128, -128, -129]

/-- R52: every word that matches none of the three patterns is illegal, and only those words are: OP 0x00, OP 0x04 to
0xFF, OP 0x02 with cmd[23:16] not zero and OP 0x03 with cmd[23:0] not zero. Such a word is answered ERR_ILLEGAL with
nothing performed and no element of the state changed. -/
def Obligations.UnmatchedWordsAreIllegal : Prop :=
  ∀ word : Word,
    ((word &&& 0xFF000000 ≠ 0x01000000 ∧ word &&& 0xFFFF0000 ≠ 0x02000000 ∧ word &&& 0xFFFFFFFF ≠ 0x03000000) ↔
      ∃ e, decode word = .error e) ∧
    ((∃ e, decode word = .error e) ↔
      word.toNat / 2 ^ 24 = 0x00 ∨ 0x04 ≤ word.toNat / 2 ^ 24 ∨
        (word.toNat / 2 ^ 24 = 0x02 ∧ word.toNat / 2 ^ 16 % 2 ^ 8 ≠ 0) ∨
        (word.toNat / 2 ^ 24 = 0x03 ∧ word.toNat % 2 ^ 24 ≠ 0)) ∧
    ∀ (s : State) (rest : List HostEvent) (e : DecodeError),
      s.commands = .command word :: rest → decode word = .error e →
        step s = .next { s with commands := rest, responses := s.responses ++ [⟨.errIllegal, 0⟩] }

/-- R53: decoding is total and follows the rule's tests in order, encoding is the rule's arithmetic, and each undoes the
other: on every in-range operand and on every legal word. -/
def Obligations.DecodeAndEncodeAgree : Prop :=
  (∀ i : Instr, i.wellFormed = true → decode (encode i) = .ok i) ∧
  (∀ (word : Word) (i : Instr), decode word = .ok i → i.wellFormed = true ∧ encode i = word) ∧
  (∀ w d : Int, -2048 ≤ w → w ≤ 2047 → -2048 ≤ d → d ≤ 2047 →
    ((encode (.construct w d)).toNat : Int) = 0x01000000 + w % 4096 * 4096 + d % 4096) ∧
  (∀ s : Int, -32768 ≤ s → s ≤ 32767 → ((encode (.update s)).toNat : Int) = 0x02000000 + s % 65536) ∧
  (encode .magnitude).toNat = 0x03000000 ∧
  (∀ word : Word,
    (decode word).toOption =
      if word.toNat / 2 ^ 24 = 0x01 then
        some (.construct (signedField 12 (word.toNat / 2 ^ 12 % 2 ^ 12)) (signedField 12 (word.toNat % 2 ^ 12)))
      else if word.toNat / 2 ^ 24 = 0x02 ∧ word.toNat / 2 ^ 16 % 2 ^ 8 = 0 then
        some (.update (signedField 16 (word.toNat % 2 ^ 16)))
      else if word.toNat / 2 ^ 24 = 0x03 ∧ word.toNat % 2 ^ 24 = 0 then some .magnitude
      else none)

/-- Words written out from the encoding, each with the command it spells (the table of 95_test_vectors.md section 2.1). -/
def Obligations.SpecWordsDecodeAsListed : Prop :=
  decode 0x01004004 = .ok (.construct 4 4) ∧
  decode 0x01101004 = .ok (.construct 257 4) ∧
  decode 0x01FFF006 = .ok (.construct (-1) 6) ∧
  decode 0x0200FF9C = .ok (.update (-100)) ∧
  decode 0x02000080 = .ok (.update 128) ∧
  decode 0x03000000 = .ok .magnitude ∧
  decode 0x02010005 = .error .updateZ8NotZero ∧
  decode 0x03000001 = .error .magnitudeZ24NotZero ∧
  decode 0x00000000 = .error (.noSuchOpcode 0x00) ∧
  decode 0xFFFFFFFF = .error (.noSuchOpcode 0xFF)

/-- An operand outside the range its field can hold is an assembly error, not a core error; every other command assembles
to a word that decodes to it (30_encoding.md section 7). -/
def Obligations.AssemblerEncodesOrRefuses : Prop :=
  ∀ i : Instr,
    (i.wellFormed = true → assembleLine (.command i) = .ok [.command (encode i)] ∧ decode (encode i) = .ok i) ∧
    (i.wellFormed = false → assembleLine (.command i) = .error .cannotEncode)

/-! ### One step (70_reset_and_hazards.md section 2, 60_exceptions.md) -/

/-- A step runs the decoded command: when the next word the host presents decodes to `i`, the step is `exec i` on the
state with that word taken off the port. -/
def Obligations.StepRunsTheDecodedCommand : Prop :=
  ∀ (s : State) (word : Word) (rest : List HostEvent) (i : Instr),
    s.commands = .command word :: rest → decode word = .ok i → step s = exec i { s with commands := rest }

/-- A well-formed command whose encoding is placed on the port is the very next thing the core runs. -/
def Obligations.PlacedWordRunsNext : Prop :=
  ∀ (s : State) (i : Instr), i.wellFormed = true → step (s.withFetchWord 32 (encode i).toNat) = exec i s

/-- R94: a word that decodes to no command performs nothing, changes no element of the state (VALID included) and is
answered (4, 0), whether the core is configured or not. -/
def Obligations.IllegalWordIsAnsweredAndChangesNothing : Prop :=
  ∀ (s : State) (word : Word) (rest : List HostEvent), s.commands = .command word :: rest →
    (∀ i, decode word ≠ .ok i) →
      ∃ t, step s = .next t ∧ SameElements s t ∧ t.commands = rest ∧ t.draws = s.draws ∧
        t.responses = s.responses ++ [⟨.errIllegal, 0⟩] ∧ Status.errIllegal.code = 4

/-- With nothing presented, a step changes nothing. That a waiting core takes such a step is the model's choice (log
entry 4); the spec says that after reset the core waits for a command and never acts on its own. -/
def Obligations.IdleStepChangesNothing : Prop :=
  ∀ s : State, s.commands = [] → step s = .next s

/-- R105: a pulse on `rst` leaves VALID = 0, returns no response, takes one step of its own between commands, and nothing
of the state before it survives: two states that agree on what is the host's and on the model's count of draws (the
model's own field, log entry 2) give the same state. Power-up leaves VALID = 0 too. -/
def Obligations.ResetPulseUnconfiguresAndForgets : Prop :=
  State.reset.valid = false ∧
  ∀ (s : State) (rest : List HostEvent), s.commands = .reset :: rest →
    ∃ t, step s = .next t ∧ t.valid = false ∧ t.commands = rest ∧ t.responses = s.responses ∧
      ∀ s' : State, s'.commands = s.commands → s'.responses = s.responses → s'.draws = s.draws → step s' = .next t

/-- The state after reset: the core is unconfigured, no response is pending, and the host has presented nothing. -/
def Obligations.PowerUpLeavesCoreUnconfigured : Prop :=
  State.reset.valid = false ∧ State.reset.responses = [] ∧ State.reset.commands = []

/-- R37, R107: a step takes exactly one event from the host, in order, and returns at most one response, after all the
earlier ones. -/
def Obligations.StepTakesOneEventInOrder : Prop :=
  ∀ s t : State, step s = .next t →
    t.commands = s.commands.tail ∧ ∃ rs, t.responses = s.responses ++ rs ∧ rs.length ≤ 1

/-- R51: every word is answered with exactly one response, whose status code is 0 to 4, not 0 only if the command was not
performed (nothing changed, but for VALID), and whose data is the magnitude for a MAGNITUDE that ends OK and 0 in every
other case; the codes are those of the table, and the packed word is {rsp_status, rsp_data}. -/
def Obligations.EveryWordGetsOneResponse : Prop :=
  (∀ (s : State) (word : Word) (rest : List HostEvent), FilterInv s → s.commands = .command word :: rest →
    ∃ t r, step s = .next t ∧ t.commands = rest ∧ t.responses = s.responses ++ [r] ∧ r.status.code.toNat ≤ 4 ∧
      (r.status ≠ .ok → SameElements s t ∨ SameElements { s with valid := false } t) ∧
      (decode word = .ok .magnitude ∧ r.status = .ok → r.data.toNat = magnitude s.accX.toInt s.accY.toInt) ∧
      (¬ (decode word = .ok .magnitude ∧ r.status = .ok) → r.data = 0)) ∧
  Status.ok.code = 0 ∧ Status.errConfig.code = 1 ∧ Status.errDomain.code = 2 ∧ Status.errNotConfigured.code = 3 ∧
  Status.errIllegal.code = 4 ∧
  ∀ r : Response, r.packed.toNat = r.status.code.toNat * 2 ^ 32 + r.data.toNat

/-- R96: the status of every response, by the rule's order of tests: legality of the word, then VALID for UPDATE and
MAGNITUDE, then the operand's range. -/
def Obligations.StatusFollowsThePriorityOfErrors : Prop :=
  ∀ (s : State) (word : Word) (rest : List HostEvent), FilterInv s → s.commands = .command word :: rest →
    ∃ t r, step s = .next t ∧ t.responses = s.responses ++ [r] ∧
      r.status =
        match decode word with
        | .error _ => Status.errIllegal
        | .ok (.construct w d) => if 1 ≤ w ∧ w ≤ 256 ∧ 1 ≤ d ∧ d ≤ 256 then .ok else .errConfig
        | .ok (.update x) =>
          if s.valid = false then .errNotConfigured else if x < -128 ∨ 127 < x then .errDomain else .ok
        | .ok .magnitude => if s.valid = false then .errNotConfigured else .ok

/-- R95: a response that is not OK means that no element of the state changed, but for VALID, which ERR_CONFIG clears. -/
def Obligations.ErrorsLeaveTheFilterIntact : Prop :=
  ∀ (s t : State) (r : Response), step s = .next t → t.responses = s.responses ++ [r] → r.status ≠ .ok →
    (r.status = .errConfig ∧ SameElements { s with valid := false } t) ∨ (r.status ≠ .errConfig ∧ SameElements s t)

/-! ### CONSTRUCT (41_construct.md) -/

/-- R70: CONSTRUCT succeeds exactly when both sign-extended operands are in 1 to 256, whatever the state. -/
def Obligations.ConstructChecksOnlyItsOperands : Prop :=
  ∀ (s : State) (w d : Int), ∃ t st, exec (.construct w d) s = .next t ∧ t.responses = s.responses ++ [⟨st, 0⟩] ∧
    ((1 ≤ w ∧ w ≤ 256 ∧ 1 ≤ d ∧ d ≤ 256) → st = .ok ∧ t.valid = true) ∧
    ((w < 1 ∨ 256 < w ∨ d < 1 ∨ 256 < d) → st = .errConfig ∧ t.valid = false)

/-- R71: a CONSTRUCT with legal operands completes from every state; it writes WINDOW, DIVISOR, the tables of
ClockTable(divisor), zeros in the buffers, zero accumulators and indices and VALID = 1, and answers OK. The filter it
leaves satisfies R17 to R21 and depends on the operands alone. -/
def Obligations.ConstructBuildsTheFilter : Prop :=
  ∀ (w d : Int), 1 ≤ w → w ≤ 256 → 1 ≤ d → d ≤ 256 → ∀ s : State,
    ∃ t, exec (.construct w d) s = .next t ∧ t.valid = true ∧ (t.window.toNat : Int) = w ∧ (t.divisor.toNat : Int) = d ∧
      (∀ j : Index, (j.toNat : Int) < d →
        (Bank.entry t.cos j).toInt = clockCos d.toNat j.toNat ∧ (Bank.entry t.sin j).toInt = clockSin d.toNat j.toNat) ∧
      (∀ j : Index, (j.toNat : Int) < w → Bank.entry t.xb j = 0 ∧ Bank.entry t.yb j = 0) ∧
      t.accX = 0 ∧ t.accY = 0 ∧ t.phase = 0 ∧ t.bufpos = 0 ∧
      t.commands = s.commands ∧ t.responses = s.responses ++ [⟨.ok, 0⟩] ∧ FilterInv t ∧
      ∀ s' t' : State, exec (.construct w d) s' = .next t' → SameFilter t t'

/-- R72: a CONSTRUCT with an operand out of range writes VALID = 0 and nothing else, and answers (1, 0). -/
def Obligations.FailedConstructClearsOnlyValid : Prop :=
  ∀ (s : State) (w d : Int), (w < 1 ∨ 256 < w ∨ d < 1 ∨ 256 < d) →
    exec (.construct w d) s = .next { s with valid := false, responses := s.responses ++ [⟨.errConfig, 0⟩] }

/-- R115: a CONSTRUCT with a bad operand destroys a working filter: until a CONSTRUCT succeeds, whatever words follow it,
the core stays unconfigured, no element changes, every UPDATE and MAGNITUDE among them is answered (3, 0), every further
CONSTRUCT, each with an operand outside 1 to 256, (1, 0), and every illegal word (4, 0). -/
def Obligations.FailedRebuildDestroysTheFilter : Prop :=
  ∀ (s t : State) (w d : Int) (words : List Word) (rest : List HostEvent), (w < 1 ∨ 256 < w ∨ d < 1 ∨ 256 < d) →
    exec (.construct w d) s = .next t → noLegalConstruct words → t.commands = words.map HostEvent.command ++ rest →
      ∃ u : State, Host.Core.run core words.length t = .next u ∧ u.valid = false ∧ SameElements t u ∧ u.commands = rest ∧
        u.responses = t.responses ++ words.map fun word =>
          ⟨match decode word with
            | .ok (.construct _ _) => .errConfig
            | .ok _ => .errNotConfigured
            | .error _ => .errIllegal, 0⟩

/-- R111, its last sentence: MAGNITUDE right after CONSTRUCT returns 0. -/
def Obligations.MagnitudeAfterConstructIsZero : Prop :=
  ∀ (s t : State) (w d : Int), 1 ≤ w → w ≤ 256 → 1 ≤ d → d ≤ 256 → exec (.construct w d) s = .next t →
    exec .magnitude t = .next { t with responses := t.responses ++ [⟨.ok, 0⟩] }

/-! ### UPDATE (42_update.md) -/

/-- R75: on a configured core a legal sample completes, with the exact effect of the seven steps: both lanes'
accumulators and buffer entries, both indices, and everything else unchanged. -/
def Obligations.UpdateAdmitsTheSample : Prop :=
  ∀ (s : State) (x : Int), FilterInv s → s.valid = true → -128 ≤ x → x ≤ 127 →
    ∃ t, exec (.update x) s = .next t ∧
      t.accX.toInt = s.accX.toInt - (Bank.entry s.xb s.bufpos).toInt + x * (Bank.entry s.cos s.phase).toInt ∧
      t.accY.toInt = s.accY.toInt - (Bank.entry s.yb s.bufpos).toInt + x * (Bank.entry s.sin s.phase).toInt ∧
      (Bank.entry t.xb s.bufpos).toInt = x * (Bank.entry s.cos s.phase).toInt ∧
      (Bank.entry t.yb s.bufpos).toInt = x * (Bank.entry s.sin s.phase).toInt ∧
      (∀ j : Index, j ≠ s.bufpos → Bank.entry t.xb j = Bank.entry s.xb j ∧ Bank.entry t.yb j = Bank.entry s.yb j) ∧
      t.phase.toNat = (s.phase.toNat + 1) % s.divisor.toNat ∧ t.bufpos.toNat = (s.bufpos.toNat + 1) % s.window.toNat ∧
      t.valid = s.valid ∧ t.window = s.window ∧ t.divisor = s.divisor ∧ t.cos = s.cos ∧ t.sin = s.sin ∧
      t.draws = s.draws ∧ t.commands = s.commands ∧ t.responses = s.responses ++ [⟨.ok, 0⟩]

/-- R76: on a configured core a sample outside [-128, 127] changes no state at all and is answered ERR_DOMAIN: it is never
clamped and never reduced to its low 8 bits. -/
def Obligations.UpdateRejectsSampleOutOfDomain : Prop :=
  ∀ (s : State) (x : Int), s.valid = true → (x < -128 ∨ 127 < x) →
    exec (.update x) s = .next { s with responses := s.responses ++ [⟨.errDomain, 0⟩] }

/-- R93: UPDATE and MAGNITUDE on an unconfigured core perform nothing, change no state and answer (3, 0), and they read no
element but VALID: the answer is the same in every unconfigured state. -/
def Obligations.UnconfiguredCoreRefusesUpdateAndMagnitude : Prop :=
  ∀ s : State, s.valid = false →
    (∀ x, exec (.update x) s = .next { s with responses := s.responses ++ [⟨.errNotConfigured, 0⟩] }) ∧
    exec .magnitude s = .next { s with responses := s.responses ++ [⟨.errNotConfigured, 0⟩] }

/-- R77: no step of UPDATE leaves its storage: the clock entries are in [-127, 127], the products at most 16256 and stored
exactly, the accumulators at most WINDOW × 16256 before step 4, at most (WINDOW - 1) × 16256 between steps 4 and 5, at
most WINDOW × 16256 <= 4161536 after step 5 and exact, and the indices reach at most 256 before the `mod`. -/
def Obligations.UpdateStaysInsideItsStorage : Prop :=
  ∀ (s : State) (x : Int), FilterInv s → s.valid = true → -128 ≤ x → x ≤ 127 →
    (Bank.entry s.cos s.phase).toInt.natAbs ≤ 127 ∧ (Bank.entry s.sin s.phase).toInt.natAbs ≤ 127 ∧
    (x * (Bank.entry s.cos s.phase).toInt).natAbs ≤ 16256 ∧ (x * (Bank.entry s.sin s.phase).toInt).natAbs ≤ 16256 ∧
    s.accX.toInt.natAbs ≤ s.window.toNat * 16256 ∧ s.accY.toInt.natAbs ≤ s.window.toNat * 16256 ∧
    (s.accX.toInt - (Bank.entry s.xb s.bufpos).toInt).natAbs ≤ (s.window.toNat - 1) * 16256 ∧
    (s.accY.toInt - (Bank.entry s.yb s.bufpos).toInt).natAbs ≤ (s.window.toNat - 1) * 16256 ∧
    s.window.toNat * 16256 ≤ 4161536 ∧ s.phase.toNat + 1 ≤ 256 ∧ s.bufpos.toNat + 1 ≤ 256 ∧
    ∃ t, exec (.update x) s = .next t ∧
      (Bank.entry t.xb s.bufpos).toInt = x * (Bank.entry s.cos s.phase).toInt ∧
      (Bank.entry t.yb s.bufpos).toInt = x * (Bank.entry s.sin s.phase).toInt ∧
      t.accX.toInt = s.accX.toInt - (Bank.entry s.xb s.bufpos).toInt + x * (Bank.entry s.cos s.phase).toInt ∧
      t.accY.toInt = s.accY.toInt - (Bank.entry s.yb s.bufpos).toInt + x * (Bank.entry s.sin s.phase).toInt ∧
      t.accX.toInt.natAbs ≤ s.window.toNat * 16256 ∧ t.accY.toInt.natAbs ≤ s.window.toNat * 16256

/-- Where UPDATE with a legal sample stops on a core with VALID = 1, and that elsewhere it computes literally: it stops, by
name, at a WINDOW or DIVISOR outside 1 to 256; then at an index outside its array's address space (R30); then at an
accumulator that would leave its 32 bits at step 4 or at step 5. In every other state, those that break R18 to R21 but
where all values fit among them, it completes with the seven steps on exact integers. Where R17 to R21 do not hold the
spec gives UPDATE no meaning (R22, U2), and both the stops and the literal computation there are the model's choice (log
entry 5). -/
def Obligations.UpdateStopsByNameAndElsewhereComputesLiterally : Prop :=
  ∀ (s : State) (x : Int), s.valid = true → -128 ≤ x → x ≤ 127 →
    if ¬ (1 ≤ s.window.toNat ∧ s.window.toNat ≤ 256 ∧ 1 ≤ s.divisor.toNat ∧ s.divisor.toNat ≤ 256) then
      exec (.update x) s = .refused .configOutOfRange
    else if s.divisor.toNat ≤ s.phase.toNat ∨ s.window.toNat ≤ s.bufpos.toNat then
      exec (.update x) s = .fault .indexOutOfRange
    else if ¬ (Fits32 (s.accX.toInt - (Bank.entry s.xb s.bufpos).toInt) ∧
        Fits32 (s.accY.toInt - (Bank.entry s.yb s.bufpos).toInt) ∧
        Fits32 (s.accX.toInt - (Bank.entry s.xb s.bufpos).toInt + x * (Bank.entry s.cos s.phase).toInt) ∧
        Fits32 (s.accY.toInt - (Bank.entry s.yb s.bufpos).toInt + x * (Bank.entry s.sin s.phase).toInt)) then
      exec (.update x) s = .refused .resultOutOfRange
    else ∃ t, exec (.update x) s = .next t ∧
      t.accX.toInt = s.accX.toInt - (Bank.entry s.xb s.bufpos).toInt + x * (Bank.entry s.cos s.phase).toInt ∧
      t.accY.toInt = s.accY.toInt - (Bank.entry s.yb s.bufpos).toInt + x * (Bank.entry s.sin s.phase).toInt ∧
      (Bank.entry t.xb s.bufpos).toInt = x * (Bank.entry s.cos s.phase).toInt ∧
      (Bank.entry t.yb s.bufpos).toInt = x * (Bank.entry s.sin s.phase).toInt ∧
      (∀ j : Index, j ≠ s.bufpos → Bank.entry t.xb j = Bank.entry s.xb j ∧ Bank.entry t.yb j = Bank.entry s.yb j) ∧
      t.phase.toNat = (s.phase.toNat + 1) % s.divisor.toNat ∧ t.bufpos.toNat = (s.bufpos.toNat + 1) % s.window.toNat ∧
      t.valid = s.valid ∧ t.window = s.window ∧ t.divisor = s.divisor ∧ t.cos = s.cos ∧ t.sin = s.sin ∧
      t.draws = s.draws ∧ t.commands = s.commands ∧ t.responses = s.responses ++ [⟨.ok, 0⟩]

/-! ### MAGNITUDE (43_magnitude.md) -/

/-- R83, R84: on a configured core MAGNITUDE completes and answers max(28 × hi + 17 × lo, 32 × hi) >> 5, zero-extended,
for hi and lo the larger and smaller of |ACC_X| and |ACC_Y|; it writes no element of the state, and the answer is a
function of the accumulators alone. -/
def Obligations.MagnitudeAnswersTheEstimate : Prop :=
  ∀ s : State, s.valid = true →
    ∃ v : BitVec 32, exec .magnitude s = .next { s with responses := s.responses ++ [⟨.ok, v⟩] } ∧
      v.toNat = max (28 * max s.accX.toInt.natAbs s.accY.toInt.natAbs + 17 * min s.accX.toInt.natAbs s.accY.toInt.natAbs)
        (32 * max s.accX.toInt.natAbs s.accY.toInt.natAbs) / 32

/-- R85: the equivalent forms of the result: the larger of hi and floor((28 × hi + 17 × lo) / 32); hi exactly when
17 × lo <= 4 × hi decides so; symmetric in signs and lanes; 0 only for (0, 0); between hi and hi + floor(13 × hi / 32). -/
def Obligations.MagnitudeEquivalentForms : Prop :=
  ∀ x y : Int,
    magnitude x y = max (max x.natAbs y.natAbs) ((28 * max x.natAbs y.natAbs + 17 * min x.natAbs y.natAbs) / 32) ∧
    (4 * max x.natAbs y.natAbs ≤ 17 * min x.natAbs y.natAbs ↔
      32 * max x.natAbs y.natAbs ≤ 28 * max x.natAbs y.natAbs + 17 * min x.natAbs y.natAbs) ∧
    (17 * min x.natAbs y.natAbs ≤ 4 * max x.natAbs y.natAbs → magnitude x y = max x.natAbs y.natAbs) ∧
    (4 * max x.natAbs y.natAbs < 17 * min x.natAbs y.natAbs →
      magnitude x y = (28 * max x.natAbs y.natAbs + 17 * min x.natAbs y.natAbs) / 32) ∧
    magnitude (-x) y = magnitude x y ∧ magnitude x (-y) = magnitude x y ∧ magnitude y x = magnitude x y ∧
    (magnitude x y = 0 ↔ x = 0 ∧ y = 0) ∧
    max x.natAbs y.natAbs ≤ magnitude x y ∧
    magnitude x y ≤ max x.natAbs y.natAbs + 13 * max x.natAbs y.natAbs / 32 ∧
    (x.natAbs = y.natAbs → magnitude x y = 45 * x.natAbs / 32)

/-- R86: in every configured core the intermediate values of MAGNITUDE stay below 2^31 and its result below 2^23. -/
def Obligations.MagnitudeStaysInside32Bits : Prop :=
  (∀ s : State, FilterInv s → s.valid = true →
    magHi s.accX.toInt s.accY.toInt ≤ 4161536 ∧ magLo s.accX.toInt s.accY.toInt ≤ 4161536 ∧
    magOpt2 s.accX.toInt s.accY.toInt ≤ 133169152 ∧ magOpt1 s.accX.toInt s.accY.toInt ≤ 187269120 ∧
    magnitude s.accX.toInt s.accY.toInt ≤ 5852160 ∧ magnitude s.accX.toInt s.accY.toInt < 2 ^ 23) ∧
  ∀ x y : Int, max x.natAbs y.natAbs ≤ 47721858 →
    28 * max x.natAbs y.natAbs + 17 * min x.natAbs y.natAbs < 2 ^ 31 ∧ 32 * max x.natAbs y.natAbs < 2 ^ 31

/-- R87, its bounds on the result: with m = sqrt(x² + y²), 17/sqrt(305) × m - 1 < result <= sqrt(1073)/32 × m. -/
def Obligations.MagnitudeApproximatesTheEuclideanLength : Prop :=
  ∀ x y : Int,
    17 / Real.sqrt 305 * Real.sqrt ((x : ℝ) ^ 2 + (y : ℝ) ^ 2) - 1 < (magnitude x y : ℝ) ∧
      (magnitude x y : ℝ) ≤ Real.sqrt 1073 / 32 * Real.sqrt ((x : ℝ) ^ 2 + (y : ℝ) ^ 2)

/-! ### The Clock Table Generator (40_clock_tables.md) -/

/-- R60 and R61: for every legal divisor every entry of both tables is the real 127 × cos(2πi/d), or 127 × sin(2πi/d),
rounded to the nearest integer with exact halves away from zero. -/
def Obligations.ClockTablesAreRoundedCosineAndSine : Prop :=
  ∀ d i : Nat, 1 ≤ d → d ≤ 256 → i < d →
    IsRounding (Real.cos (2 * Real.pi * i / d) * 127) (clockCos d i) ∧
      IsRounding (Real.sin (2 * Real.pi * i / d) * 127) (clockSin d i)

/-- R62: in a configured core every table entry below DIVISOR is in [-127, 127] (so -128 never occurs), COS[0] = 127 and
SIN[0] = 0; the first sample after a construction contributes only to ACC_X; and the tables for divisor 4 are the
source's. -/
def Obligations.TableEntriesStayInRange : Prop :=
  (∀ s : State, FilterInv s → s.valid = true →
    (∀ j : Index, j.toNat < s.divisor.toNat →
      -127 ≤ (Bank.entry s.cos j).toInt ∧ (Bank.entry s.cos j).toInt ≤ 127 ∧
        -127 ≤ (Bank.entry s.sin j).toInt ∧ (Bank.entry s.sin j).toInt ≤ 127) ∧
    (Bank.entry s.cos 0).toInt = 127 ∧ (Bank.entry s.sin 0).toInt = 0) ∧
  (∀ (s t : State) (w d x : Int), 1 ≤ w → w ≤ 256 → 1 ≤ d → d ≤ 256 → -128 ≤ x → x ≤ 127 →
    exec (.construct w d) s = .next t → ∃ u, exec (.update x) t = .next u ∧ u.accX.toInt = 127 * x ∧ u.accY = 0) ∧
  (List.range 4).map (clockCos 4) = [127, 0, -127, 0] ∧ (List.range 4).map (clockSin 4) = [0, 127, 0, -127]

/-- R65, where the tie rule matters: at the sixths and thirds of a turn for the cosine and at the twelfths 1, 5, 7 and 11
for the sine the entry is 64 or -64 as the rule lists (63 or -63 with halves toward zero), and no other entry of any table
depends on TIE_ROUND. That last clause holds of the generator by the model's own coding (log entry 6, DEDUCED): only its
branch for sixths of a turn consults the tie rule, and the series branch names one fixed rule. -/
def Obligations.TieRuleMattersOnlyAtExactHalves : Prop :=
  ∀ d i : Nat, 0 < d → i < d →
    ((6 * i = d ∨ 6 * i = 5 * d) →
      cosTableEntry .awayFromZero d i = 64 ∧ cosTableEntry .towardZero d i = 63) ∧
    ((3 * i = d ∨ 3 * i = 2 * d) →
      cosTableEntry .awayFromZero d i = -64 ∧ cosTableEntry .towardZero d i = -63) ∧
    ((12 * i = d ∨ 12 * i = 5 * d) →
      sinTableEntry .awayFromZero d i = 64 ∧ sinTableEntry .towardZero d i = 63) ∧
    ((12 * i = 7 * d ∨ 12 * i = 11 * d) →
      sinTableEntry .awayFromZero d i = -64 ∧ sinTableEntry .towardZero d i = -63) ∧
    ∀ tie : TieRound,
      (¬ (6 * i = d ∨ 6 * i = 5 * d ∨ 3 * i = d ∨ 3 * i = 2 * d) →
        cosTableEntry tie d i = cosTableEntry .awayFromZero d i) ∧
      (¬ (12 * i = d ∨ 12 * i = 5 * d ∨ 12 * i = 7 * d ∨ 12 * i = 11 * d) →
        sinTableEntry tie d i = sinTableEntry .awayFromZero d i)

/-- R66: the symmetries of the tables, for every legal divisor. -/
def Obligations.ClockTableSymmetries : Prop :=
  ∀ d i : Nat, 1 ≤ d → d ≤ 256 → 0 < i → i < d →
    clockCos d (d - i) = clockCos d i ∧ clockSin d (d - i) = -clockSin d i ∧
    (d % 2 = 0 → clockCos d ((i + d / 2) % d) = -clockCos d i ∧ clockSin d ((i + d / 2) % d) = -clockSin d i) ∧
    (d % 4 = 0 → clockSin d i = clockCos d ((i + 3 * (d / 4)) % d)) ∧
    IsRounding (127 * Real.cos (2 * Real.pi * (((4 * i + 3 * d) % (4 * d) : Nat) : ℝ) / (4 * d))) (clockSin d i)

/-- The norm of the reference vector, in the form that resolves conflict C1 and that 95_test_vectors.md S1 gives as the
test: |sqrt(cos² + sin²) - 127| < 1 at every index of every table. -/
def Obligations.ReferenceVectorHasNorm127 : Prop :=
  ∀ d i : Nat, 1 ≤ d → d ≤ 256 → i < d →
    |Real.sqrt ((clockCos d i : ℝ) ^ 2 + (clockSin d i : ℝ) ^ 2) - 127| < 1

/-! ### Invariants of the whole machine (10_state.md) -/

/-- The invariants R17 to R21 hold at reset, where VALID = 0. -/
def Obligations.FilterInvariantsHoldAtReset : Prop := FilterInv State.reset

/-- R17 to R21 (and R78): every step from a state that satisfies the invariants leaves a state that satisfies them. -/
def Obligations.EveryStepKeepsTheFilterInvariants : Prop :=
  ∀ s t : State, FilterInv s → step s = .next t → FilterInv t

/-- R22, R102: from a state that satisfies the invariants no run of any length, over any words and resets whatever, meets
a fault or a refusal: no arithmetic leaves its width and no index its array. -/
def Obligations.NoRunStopsUnderTheInvariants : Prop :=
  ∀ (s : State) (n : Nat), FilterInv s → ∃ t : State, Host.Core.run core n s = .next t ∧ FilterInv t

/-- R13: VALID is written by reset and by CONSTRUCT and by nothing else: it rises only by a CONSTRUCT that succeeds and
falls only by a reset or a CONSTRUCT that fails. -/
def Obligations.ValidIsWrittenOnlyByResetAndConstruct : Prop :=
  ∀ s t : State, step s = .next t →
    (s.valid = false → t.valid = true → ∃ word rest w d, s.commands = .command word :: rest ∧
      decode word = .ok (.construct w d) ∧ 1 ≤ w ∧ w ≤ 256 ∧ 1 ≤ d ∧ d ≤ 256) ∧
    (s.valid = true → t.valid = false → (∃ rest, s.commands = .reset :: rest) ∨
      ∃ word rest w d, s.commands = .command word :: rest ∧ decode word = .ok (.construct w d) ∧
        (w < 1 ∨ 256 < w ∨ d < 1 ∨ 256 < d))

/-- R14, R21, R25: WINDOW, DIVISOR, COS and SIN are immutable within an instance: a step that is neither a reset nor a
CONSTRUCT that succeeds leaves all four bit for bit. -/
def Obligations.TablesAndConfigurationAreImmutable : Prop :=
  ∀ s t : State, step s = .next t →
    (∃ rest, s.commands = .reset :: rest) ∨
    (∃ word rest w d, s.commands = .command word :: rest ∧ decode word = .ok (.construct w d) ∧
      1 ≤ w ∧ w ≤ 256 ∧ 1 ≤ d ∧ d ≤ 256) ∨
    (t.window = s.window ∧ t.divisor = s.divisor ∧ t.cos = s.cos ∧ t.sin = s.sin)

/-- R112: while a filter lives, PHASE and BUFPOS advance by exactly one, modulo DIVISOR and WINDOW, at each UPDATE that is
answered OK, and stay at every other word that is no CONSTRUCT: neither MAGNITUDE nor a rejected or illegal word moves
them. -/
def Obligations.PhaseAdvancesOncePerAcceptedSample : Prop :=
  ∀ (s t : State) (word : Word) (rest : List HostEvent), FilterInv s → s.valid = true →
    s.commands = .command word :: rest → (∀ w d, decode word ≠ .ok (.construct w d)) → step s = .next t →
      ((∃ x, decode word = .ok (.update x) ∧ -128 ≤ x ∧ x ≤ 127) →
        t.phase.toNat = (s.phase.toNat + 1) % s.divisor.toNat ∧
          t.bufpos.toNat = (s.bufpos.toNat + 1) % s.window.toNat) ∧
      ((∀ x, decode word = .ok (.update x) → x < -128 ∨ 127 < x) → t.phase = s.phase ∧ t.bufpos = s.bufpos)

/-- R16: when WINDOW = DIVISOR the two indices stay equal: every step keeps it, whatever the step. -/
def Obligations.EqualModuliKeepTheIndicesEqual : Prop :=
  ∀ s t : State, (s.valid = true → s.window = s.divisor → s.phase = s.bufpos) → step s = .next t →
    t.valid = true → t.window = t.divisor → t.phase = t.bufpos

/-- R106: on an unconfigured core nothing but a CONSTRUCT (or a reset) changes any element of the state. -/
def Obligations.UnconfiguredCoreChangesOnlyByConstruct : Prop :=
  ∀ s t : State, s.valid = false → step s = .next t →
    SameElements s t ∨ (∃ rest, s.commands = .reset :: rest) ∨
      ∃ word rest w d, s.commands = .command word :: rest ∧ decode word = .ok (.construct w d)

/-- U1, U3: no response depends on a content the spec leaves unspecified. Two states that agree on VALID, on the filter
where there is one, on the host's commands and on the responses so far stay so, and stop alike, through any run. The
free values and the count of draws are the model's (log entries 2 and 3); the statement holds for every value of them. -/
def Obligations.UnspecifiedContentsAreNeverObserved : Prop :=
  ∀ (s t : State) (n : Nat), Indistinguishable s t → SameOutcome (Host.Core.run core n s) (Host.Core.run core n t)

/-- The source's determinism property (95_test_vectors.md S5): whatever the two cores held before, once a legal CONSTRUCT
has run, the same words and resets give the same filter and the same responses. -/
def Obligations.ConstructMakesRunsReproducible : Prop :=
  ∀ (s t : State) (w d : Int) (rest : List HostEvent) (n : Nat), 1 ≤ w → w ≤ 256 → 1 ≤ d → d ≤ 256 →
    s.commands = .command (encode (.construct w d)) :: rest → t.commands = s.commands → t.responses = s.responses →
      SameOutcome (Host.Core.run core (n + 1) s) (Host.Core.run core (n + 1) t)

/-! ### The filter over time (10_state.md R23, 42_update.md R81) -/

/-- R23, the source's guarantee: after a CONSTRUCT and any stream of words that are no CONSTRUCT, of which n are UPDATEs
with a legal sample, the indices are n modulo their lengths, the accumulators are the exact sums of the last
min(n, window) samples times their clock entries, the buffers hold those products, and the rest of them is still 0. -/
def Obligations.AccumulatorIsTheWindowedCorrelation : Prop :=
  ∀ (s : State) (w d : Nat) (words : List Word) (rest : List HostEvent), 1 ≤ w → w ≤ 256 → 1 ≤ d → d ≤ 256 →
    noConstruct words →
    s.commands = .command (encode (.construct w d)) :: (words.map HostEvent.command ++ rest) →
    ∃ t : State, Host.Core.run core (words.length + 1) s = .next t ∧ t.valid = true ∧ t.commands = rest ∧
      t.phase.toNat = (acceptedSamples words).length % d ∧ t.bufpos.toNat = (acceptedSamples words).length % w ∧
      t.accX.toInt = windowedSum (clockCos d) w d (acceptedSamples words) ∧
      t.accY.toInt = windowedSum (clockSin d) w d (acceptedSamples words) ∧
      (∀ k, (acceptedSamples words).length - w ≤ k → k < (acceptedSamples words).length →
        (Bank.entry t.xb (BitVec.ofNat 8 (k % w))).toInt = (acceptedSamples words).getD k 0 * clockCos d (k % d) ∧
          (Bank.entry t.yb (BitVec.ofNat 8 (k % w))).toInt = (acceptedSamples words).getD k 0 * clockSin d (k % d)) ∧
      ∀ j : Index, (acceptedSamples words).length ≤ j.toNat → j.toNat < w →
        Bank.entry t.xb j = 0 ∧ Bank.entry t.yb j = 0

/-- The zero flush (R81 and 95_test_vectors.md S2): from any configured core, WINDOW times UPDATE 0 drives the accumulator
to exactly (0, 0), and MAGNITUDE then answers 0. -/
def Obligations.ZeroSamplesFlushTheAccumulator : Prop :=
  ∀ (s : State) (rest : List HostEvent), FilterInv s → s.valid = true →
    s.commands = presented (List.replicate s.window.toNat (.update 0) ++ [.magnitude]) ++ rest →
      ∃ t u : State, Host.Core.run core s.window.toNat s = .next t ∧ t.accX = 0 ∧ t.accY = 0 ∧
        t.phase.toNat = (s.phase.toNat + s.window.toNat) % s.divisor.toNat ∧
        step t = .next u ∧ u.responses = t.responses ++ [⟨.ok, 0⟩] ∧ SameElements t u

/-- R114: when WINDOW is a multiple of DIVISOR, a steady input of period DIVISOR leaves the accumulator of a full window
where it is at every further sample. -/
def Obligations.SteadyToneHoldsTheAccumulator : Prop :=
  ∀ (s : State) (w d n : Nat) (f : Nat → Int) (rest : List HostEvent), 1 ≤ w → w ≤ 256 → 1 ≤ d → d ∣ w → w ≤ n →
    (∀ k, -128 ≤ f k ∧ f k ≤ 127) →
    s.commands = presented (.construct w d :: (List.range (n + 1)).map fun k => .update (f (k % d))) ++ rest →
      ∃ t u : State, Host.Core.run core (n + 1) s = .next t ∧ step t = .next u ∧ u.accX = t.accX ∧ u.accY = t.accY
end

