-- ==== Sys2Proof/Laws/Clock.lean ====
section
/-! SUPPORT. The Clock Table Generator against the real cosine: how close the integer series comes to it, and the range
of a table entry. -/

namespace Sys2Proof.Machine

/-! ### The series as a sum of terms -/

/-- The scaled Taylor terms that `cosSeries` adds up. -/
def seriesTerm (th : Int) : Nat → Int
  | 0 => fixedScale
  | k + 1 => -(seriesTerm th k * th * th) / (fixedScale * fixedScale * (2 * k + 1) * (2 * k + 2))

theorem cosSeries_eq_sum (th : Int) (n k : Nat) (acc : Int) :
    cosSeries th n k (seriesTerm th k) acc = acc + ∑ j ∈ Finset.range n, seriesTerm th (k + j) := by
  induction n generalizing k acc with
  | zero => simp [cosSeries]
  | succ n ih =>
    have h := ih (k + 1) (acc + seriesTerm th k)
    have e : seriesTerm th (k + 1)
        = -(seriesTerm th k * th * th) / (fixedScale * fixedScale * (2 * k + 1) * (2 * k + 2)) := rfl
    have shift : ∀ j, k + 1 + j = k + (j + 1) := by intro j; ring
    simp only [shift, Nat.cast_add, Nat.cast_one] at h
    rw [Finset.sum_range_succ', cosSeries, ← e, h, add_zero]
    ring

/-- The real Taylor term of cosine of degree 2k. -/
noncomputable def realTerm (x : ℝ) (k : Nat) : ℝ := (-1) ^ k * x ^ (2 * k) / (2 * k).factorial

theorem realTerm_succ (x : ℝ) (k : Nat) :
    realTerm x (k + 1) = -(realTerm x k * x ^ 2) / ((2 * k + 1) * (2 * k + 2)) := by
  have h : (2 * (k + 1)).factorial = (2 * k + 2) * ((2 * k + 1) * (2 * k).factorial) := by
    rw [show 2 * (k + 1) = 2 * k + 1 + 1 by ring, Nat.factorial_succ, Nat.factorial_succ]
  have hf : ((2 * k).factorial : ℝ) ≠ 0 := by positivity
  have h1 : (2 * (k : ℝ) + 1) ≠ 0 := by positivity
  have h2 : (2 * (k : ℝ) + 2) ≠ 0 := by positivity
  unfold realTerm
  rw [h]
  push_cast
  field_simp
  ring

/-- Integer floor division misses the real quotient by less than one. -/
theorem floorDiv_close (a b : Int) (hb : 0 < b) : |((a / b : Int) : ℝ) - (a : ℝ) / b| ≤ 1 := by
  have hbr : (0 : ℝ) < b := by exact_mod_cast hb
  have e : (a : ℝ) = b * ((a / b : Int) : ℝ) + ((a % b : Int) : ℝ) := by
    exact_mod_cast (Int.mul_ediv_add_emod a b).symm
  have r0 : (0 : ℝ) ≤ ((a % b : Int) : ℝ) := by exact_mod_cast Int.emod_nonneg a hb.ne'
  have r1 : ((a % b : Int) : ℝ) < b := by exact_mod_cast Int.emod_lt_of_pos a hb
  have : ((a / b : Int) : ℝ) - (a : ℝ) / b = -(((a % b : Int) : ℝ) / b) := by
    rw [e]; field_simp; ring
  rw [this, abs_neg, abs_of_nonneg (by positivity), div_le_one hbr]
  exact r1.le

theorem fixedScale_cast : ((fixedScale : Int) : ℝ) = 10 ^ 15 := by norm_num [fixedScale]

/-- The error of one term, from the error of the one before. -/
theorem seriesTerm_error_succ (th : Int) (k : Nat) :
    |(seriesTerm th (k + 1) : ℝ) - 10 ^ 15 * realTerm ((th : ℝ) / 10 ^ 15) (k + 1)| ≤
      |(seriesTerm th k : ℝ) - 10 ^ 15 * realTerm ((th : ℝ) / 10 ^ 15) k| * (((th : ℝ) / 10 ^ 15) ^ 2 / ((2 * k + 1) * (2 * k + 2)))
        + 1 := by
  set x : ℝ := (th : ℝ) / 10 ^ 15 with hx
  have hb : (0 : Int) < fixedScale * fixedScale * (2 * k + 1) * (2 * k + 2) := by
    have : (0 : Int) < fixedScale := by norm_num [fixedScale]
    positivity
  have hq := floorDiv_close (-(seriesTerm th k * th * th)) _ hb
  have hth : (th : ℝ) = 10 ^ 15 * x := by rw [hx]; field_simp
  have hk : (0 : ℝ) < (2 * k + 1) * (2 * k + 2) := by positivity
  have e : ((-(seriesTerm th k * th * th) : Int) : ℝ) / ((fixedScale * fixedScale * (2 * k + 1) * (2 * k + 2) : Int) : ℝ)
      = -((seriesTerm th k : ℝ) * x ^ 2) / ((2 * k + 1) * (2 * k + 2)) := by
    push_cast
    rw [fixedScale_cast, hth]
    field_simp
  rw [e] at hq
  have hs : ((seriesTerm th (k + 1) : Int) : ℝ)
      = ((-(seriesTerm th k * th * th) / (fixedScale * fixedScale * (2 * k + 1) * (2 * k + 2)) : Int) : ℝ) := rfl
  rw [← hs] at hq
  rw [realTerm_succ]
  have split : (seriesTerm th (k + 1) : ℝ) - 10 ^ 15 * (-(realTerm x k * x ^ 2) / ((2 * k + 1) * (2 * k + 2)))
      = ((seriesTerm th (k + 1) : ℝ) - -((seriesTerm th k : ℝ) * x ^ 2) / ((2 * k + 1) * (2 * k + 2)))
        - ((seriesTerm th k : ℝ) - 10 ^ 15 * realTerm x k) * (x ^ 2 / ((2 * k + 1) * (2 * k + 2))) := by
    field_simp; ring
  rw [split]
  calc _ ≤ _ := abs_sub _ _
    _ ≤ 1 + |(seriesTerm th k : ℝ) - 10 ^ 15 * realTerm x k| * (x ^ 2 / ((2 * k + 1) * (2 * k + 2))) := by
        rw [abs_mul, abs_of_nonneg (show (0 : ℝ) ≤ x ^ 2 / ((2 * k + 1) * (2 * k + 2)) by positivity)]
        linarith
    _ = _ := by ring

/-- Every scaled term is within 10 units of the real one, for angles up to a little over a turn. -/
theorem seriesTerm_error {th : Int} (hsq : ((th : ℝ) / 10 ^ 15) ^ 2 ≤ 39.6) (k : Nat) :
    |(seriesTerm th k : ℝ) - 10 ^ 15 * realTerm ((th : ℝ) / 10 ^ 15) k| ≤ 10 := by
  set x : ℝ := (th : ℝ) / 10 ^ 15
  have h0 : |(seriesTerm th 0 : ℝ) - 10 ^ 15 * realTerm x 0| = 0 := by
    simp [seriesTerm, realTerm, fixedScale_cast]
  have c : ∀ k : Nat, x ^ 2 / ((2 * k + 1) * (2 * k + 2)) ≤ 39.6 / ((2 * k + 1) * (2 * k + 2)) := by
    intro k
    gcongr
  have h1 := seriesTerm_error_succ th 0
  have h2 := seriesTerm_error_succ th 1
  have h3 := seriesTerm_error_succ th 2
  change _ ≤ _ * (x ^ 2 / _) + 1 at h1 h2 h3
  have c1 := c 1
  have c2 := c 2
  replace h1 := h1.trans (by rw [h0, zero_mul, zero_add] : _ ≤ (1 : ℝ))
  have b1 : |(seriesTerm th 1 : ℝ) - 10 ^ 15 * realTerm x 1| ≤ 1 := h1
  have b2 : |(seriesTerm th 2 : ℝ) - 10 ^ 15 * realTerm x 2| ≤ 4.3 := by
    refine h2.trans ?_
    calc _ ≤ 1 * (39.6 / ((2 * ((1 : Nat) : ℝ) + 1) * (2 * ((1 : Nat) : ℝ) + 2))) + 1 := by gcongr
      _ ≤ 4.3 := by norm_num
  have b3 : |(seriesTerm th 3 : ℝ) - 10 ^ 15 * realTerm x 3| ≤ 10 := by
    refine h3.trans ?_
    calc _ ≤ 4.3 * (39.6 / ((2 * ((2 : Nat) : ℝ) + 1) * (2 * ((2 : Nat) : ℝ) + 2))) + 1 := by gcongr
      _ ≤ 10 := by norm_num
  have rest : ∀ m : Nat, |(seriesTerm th (m + 3) : ℝ) - 10 ^ 15 * realTerm x (m + 3)| ≤ 10 := by
    intro m
    induction m with
    | zero => exact b3
    | succ m ih =>
      refine (seriesTerm_error_succ th (m + 3)).trans ?_
      have hk : (39.6 : ℝ) / ((2 * ((m + 3 : Nat) : ℝ) + 1) * (2 * ((m + 3 : Nat) : ℝ) + 2)) ≤ 0.9 := by
        rw [div_le_iff₀ (by positivity)]
        push_cast
        have : (0 : ℝ) ≤ m := by positivity
        nlinarith
      calc _ ≤ 10 * (39.6 / ((2 * ((m + 3 : Nat) : ℝ) + 1) * (2 * ((m + 3 : Nat) : ℝ) + 2))) + 1 := by
            gcongr
        _ ≤ 10 := by linarith
  match k with
  | 0 => rw [h0]; norm_num
  | 1 => exact b1.trans (by norm_num)
  | 2 => exact b2.trans (by norm_num)
  | m + 3 => exact rest m

/-! ### The real series against the cosine -/

theorem sum_exp_terms (x : ℝ) (n : Nat) :
    (∑ m ∈ Finset.range (2 * n), ((x : ℂ) * Complex.I) ^ m / (m.factorial : ℂ)).re
      = ∑ k ∈ Finset.range n, realTerm x k := by
  induction n with
  | zero => simp
  | succ n ih =>
    rw [show 2 * (n + 1) = 2 * n + 1 + 1 by ring, Finset.sum_range_succ, Finset.sum_range_succ, Finset.sum_range_succ,
      Complex.add_re, Complex.add_re, ih]
    have even : ((x : ℂ) * Complex.I) ^ (2 * n) / ((2 * n).factorial : ℂ) = ((realTerm x n : ℝ) : ℂ) := by
      rw [mul_pow, pow_mul Complex.I, Complex.I_sq, realTerm]
      push_cast
      ring
    have odd : ((x : ℂ) * Complex.I) ^ (2 * n + 1) / ((2 * n + 1).factorial : ℂ)
        = (((-1) ^ n * x ^ (2 * n + 1) / (2 * n + 1).factorial : ℝ) : ℂ) * Complex.I := by
      rw [mul_pow, pow_succ Complex.I, pow_mul Complex.I, Complex.I_sq]
      push_cast
      ring
    rw [even, odd, Complex.ofReal_re, Complex.re_ofReal_mul, Complex.I_re]
    ring

theorem realSeries_close {x : ℝ} (h0 : 0 ≤ x) (h1 : x ≤ 6.3) :
    |Real.cos x - ∑ k ∈ Finset.range 40, realTerm x k| ≤ 1 / 10 ^ 12 := by
  have hn : ‖(x : ℂ) * Complex.I‖ = x := by simp [abs_of_nonneg h0]
  have hb := Complex.exp_bound' (x := (x : ℂ) * Complex.I) (n := 80) (by
    rw [hn]
    norm_num
    linarith)
  rw [hn] at hb
  have hre := (Complex.abs_re_le_norm _).trans hb
  rw [Complex.sub_re, Complex.exp_ofReal_mul_I_re, sum_exp_terms x 40] at hre
  refine hre.trans ?_
  have hp : x ^ 80 ≤ 6.3 ^ 80 := by gcongr
  calc x ^ 80 / ((Nat.factorial 80 : Nat) : ℝ) * 2 ≤ 6.3 ^ 80 / ((Nat.factorial 80 : Nat) : ℝ) * 2 := by gcongr
    _ ≤ 1 / 10 ^ 12 := by norm_num [Nat.factorial]

/-- The fixed-point series of 40_clock_tables.md section 3 is the cosine to better than 10^-11. -/
theorem cosSeries_close {th : Int} (h0 : 0 ≤ th) (h1 : th ≤ 2 * piScaled) :
    |(cosSeries th 40 0 fixedScale 0 : ℝ) / 10 ^ 15 - Real.cos (th / 10 ^ 15)| ≤ 1 / 10 ^ 11 := by
  set x : ℝ := (th : ℝ) / 10 ^ 15 with hx
  have x0 : 0 ≤ x := by rw [hx]; positivity
  have x1 : x ≤ 6.2832 := by
    have : (th : ℝ) ≤ 2 * 3141592653589793 := by exact_mod_cast h1
    rw [hx, div_le_iff₀ (by positivity)]
    linarith
  have xs : x ^ 2 ≤ 39.6 := by nlinarith
  have hsum := cosSeries_eq_sum th 40 0 0
  simp only [zero_add] at hsum
  have hs : cosSeries th 40 0 fixedScale 0 = ∑ j ∈ Finset.range 40, seriesTerm th j := hsum
  have herr : |(∑ j ∈ Finset.range 40, seriesTerm th j : ℝ) - 10 ^ 15 * ∑ j ∈ Finset.range 40, realTerm x j| ≤ 400 := by
    rw [Finset.mul_sum, ← Finset.sum_sub_distrib]
    refine (Finset.abs_sum_le_sum_abs _ _).trans ?_
    refine (Finset.sum_le_card_nsmul _ _ 10 fun k _ => seriesTerm_error xs k).trans ?_
    norm_num
  have hr := realSeries_close x0 (by linarith : x ≤ 6.3)
  rw [hs]
  push_cast
  have e : (∑ j ∈ Finset.range 40, (seriesTerm th j : ℝ)) / 10 ^ 15 - Real.cos x
      = ((∑ j ∈ Finset.range 40, (seriesTerm th j : ℝ)) - 10 ^ 15 * ∑ j ∈ Finset.range 40, realTerm x j) / 10 ^ 15
        - (Real.cos x - ∑ j ∈ Finset.range 40, realTerm x j) := by
    field_simp; ring
  rw [e]
  refine (abs_sub _ _).trans ?_
  rw [abs_div, abs_of_pos (show (0 : ℝ) < 10 ^ 15 by positivity)]
  have : |(∑ j ∈ Finset.range 40, (seriesTerm th j : ℝ)) - 10 ^ 15 * ∑ j ∈ Finset.range 40, realTerm x j| / 10 ^ 15
      ≤ 400 / 10 ^ 15 := by gcongr
  refine (add_le_add this hr).trans ?_
  norm_num

/-- The fixed-point angle of entry `i` of divisor `d` is the real one to better than 10^-14. -/
theorem angle_close {d i : Nat} (hi : i < d) :
    |((2 * piScaled * i / d : Int) : ℝ) / 10 ^ 15 - 2 * Real.pi * i / d| ≤ 1 / 10 ^ 14 := by
  have hd : 0 < d := by omega
  have hdr : (0 : ℝ) < d := by exact_mod_cast hd
  have hir : (i : ℝ) ≤ d := by exact_mod_cast hi.le
  have hq := floorDiv_close (2 * piScaled * i) d (by exact_mod_cast hd)
  have hlo := Real.pi_gt_d20
  have hhi := Real.pi_lt_d20
  have hp : |2 * (3141592653589793 : ℝ) - 10 ^ 15 * (2 * Real.pi)| ≤ 1 := by
    rw [abs_le]; constructor <;> norm_num at hlo hhi ⊢ <;> linarith
  have hpi : ((piScaled : Int) : ℝ) = 3141592653589793 := by norm_num [piScaled]
  push_cast at hq
  rw [hpi] at hq
  have e : ((2 * piScaled * i / d : Int) : ℝ) / 10 ^ 15 - 2 * Real.pi * i / d
      = ((((2 * piScaled * i / d : Int) : ℝ) - 2 * 3141592653589793 * i / d)
        + (2 * (3141592653589793 : ℝ) - 10 ^ 15 * (2 * Real.pi)) * (i / d)) / 10 ^ 15 := by
    field_simp; ring
  rw [e, abs_div, abs_of_pos (show (0 : ℝ) < 10 ^ 15 by positivity), div_le_iff₀ (by positivity)]
  refine (abs_add_le _ _).trans ?_
  rw [abs_mul]
  have hr : |(i : ℝ) / d| ≤ 1 := by
    rw [abs_of_nonneg (by positivity), div_le_one hdr]; exact hir
  have : |2 * (3141592653589793 : ℝ) - 10 ^ 15 * (2 * Real.pi)| * |(i : ℝ) / d| ≤ 1 * 1 := by gcongr
  have hq' : |((2 * piScaled * i / d : Int) : ℝ) - 2 * 3141592653589793 * i / d| ≤ 1 := hq
  norm_num at this ⊢
  linarith

theorem scaledAngle_bounds {d i : Nat} (hi : i < d) :
    (0 : Int) ≤ 2 * piScaled * i / d ∧ (2 * piScaled * i / d : Int) ≤ 2 * piScaled := by
  have hd : (0 : Int) < d := by exact_mod_cast (by omega : 0 < d)
  have hid : (i : Int) ≤ d := by exact_mod_cast hi.le
  constructor
  · apply Int.ediv_nonneg _ hd.le
    have : (0 : Int) ≤ piScaled := by norm_num [piScaled]
    positivity
  · apply Int.ediv_le_of_le_mul hd
    have : (0 : Int) ≤ piScaled := by norm_num [piScaled]
    nlinarith

/-- What the series computes for entry `i` of divisor `d` is 127 times the real cosine to better than 10^-8. -/
theorem series_entry_close {d i : Nat} (hi : i < d) :
    |(clockScale * cosSeries (2 * piScaled * i / d) 40 0 fixedScale 0 : ℝ) / 10 ^ 15
      - 127 * Real.cos (2 * Real.pi * i / d)| ≤ 1 / 10 ^ 8 := by
  obtain ⟨h0, h1⟩ := scaledAngle_bounds hi
  have hc := cosSeries_close h0 h1
  have ha := angle_close hi
  set A : ℝ := ((2 * piScaled * i / d : Int) : ℝ) / 10 ^ 15
  set B : ℝ := 2 * Real.pi * i / d
  have hAB : |Real.cos A - Real.cos B| ≤ 1 / 10 ^ 14 := (Real.abs_cos_sub_cos_le A B).trans ha
  have e : (clockScale * cosSeries (2 * piScaled * i / d) 40 0 fixedScale 0 : ℝ) / 10 ^ 15 - 127 * Real.cos B
      = 127 * (((cosSeries (2 * piScaled * i / d) 40 0 fixedScale 0 : ℝ) / 10 ^ 15 - Real.cos A)
        + (Real.cos A - Real.cos B)) := by
    push_cast [clockScale]
    ring
  rw [e, abs_mul]
  have := (abs_add_le ((cosSeries (2 * piScaled * i / d) 40 0 fixedScale 0 : ℝ) / 10 ^ 15 - Real.cos A)
    (Real.cos A - Real.cos B)).trans (add_le_add hc hAB)
  norm_num at this ⊢
  linarith

/-! ### The range of an entry -/

theorem rnd_series_range {num : Int} (h : num.natAbs ≤ 127 * 10 ^ 15 + 10 ^ 8) :
    -127 ≤ rnd .awayFromZero num fixedScale ∧ rnd .awayFromZero num fixedScale ≤ 127 := by
  unfold rnd resolveTie fixedScale
  norm_num at h ⊢
  split
  · split <;> omega
  · omega

theorem rnd_sixths_range (tie : TieRound) (q : Nat) :
    -127 ≤ rnd tie (clockScale * twiceCosSixths q) 2 ∧ rnd tie (clockScale * twiceCosSixths q) 2 ≤ 127 := by
  have h : twiceCosSixths q = 2 ∨ twiceCosSixths q = 1 ∨ twiceCosSixths q = -1 ∨ twiceCosSixths q = -2 := by
    unfold twiceCosSixths
    split <;> simp
  rcases h with h | h | h | h <;> rw [h] <;> cases tie <;> decide

theorem quarters_range (q : Nat) : -127 ≤ clockScale * cosQuarters q ∧ clockScale * cosQuarters q ≤ 127 := by
  unfold cosQuarters clockScale
  split <;> norm_num

/-- Every value the generator computes is in [-127, 127], under every tie rule (the range of R62). -/
theorem roundedCos_range (tie : TieRound) {d i : Nat} (hi : i < d) :
    -127 ≤ roundedCos tie d i ∧ roundedCos tie d i ≤ 127 := by
  unfold roundedCos
  split
  · exact rnd_sixths_range tie _
  · split
    · exact quarters_range _
    · apply rnd_series_range
      have h := series_entry_close hi
      have hc := Real.abs_cos_le_one (2 * Real.pi * i / d)
      rw [← Nat.cast_le (α := ℝ), Nat.cast_natAbs]
      push_cast
      have : |(clockScale : ℝ) * (cosSeries (2 * piScaled * i / d) 40 0 fixedScale 0 : ℝ) / 10 ^ 15| ≤ 127 + 1 / 10 ^ 8 := by
        rw [abs_le] at h hc ⊢
        constructor <;> linarith
      rw [abs_div, abs_of_pos (show (0 : ℝ) < 10 ^ 15 by positivity), div_le_iff₀ (by positivity)] at this
      norm_num at this ⊢
      linarith

theorem clockCos_range {d i : Nat} (hi : i < d) : -127 ≤ clockCos d i ∧ clockCos d i ≤ 127 :=
  roundedCos_range _ hi

theorem clockSin_range {d : Nat} (hd : 0 < d) (i : Nat) : -127 ≤ clockSin d i ∧ clockSin d i ≤ 127 :=
  roundedCos_range _ (Nat.mod_lt _ (by omega))

/-- A table entry is stored in its 8 bits without loss (R62). -/
theorem toInt_clockCos {d i : Nat} (hi : i < d) : (BitVec.ofInt 8 (clockCos d i)).toInt = clockCos d i := by
  have h := clockCos_range hi
  rw [BitVec.toInt_ofInt]
  apply Int.bmod_eq_of_le <;> norm_num <;> omega

theorem toInt_clockSin {d : Nat} (hd : 0 < d) (i : Nat) : (BitVec.ofInt 8 (clockSin d i)).toInt = clockSin d i := by
  have h := clockSin_range hd i
  rw [BitVec.toInt_ofInt]
  apply Int.bmod_eq_of_le <;> norm_num <;> omega

end Sys2Proof.Machine
end

