-- ==== Sys2Proof/Laws/Decode.lean ====
section
/-! SUPPORT. The fields of a word as numbers, and decoding and encoding in terms of them. -/

namespace Sys2Proof

open Sys2Proof.Machine

/-! ### The fields as numbers -/

theorem opField_toNat (word : Word) : (opField word).toNat = word.toNat / 2 ^ 24 := by
  have := word.isLt
  simp [opField, BitVec.extractLsb'_toNat, Nat.shiftRight_eq_div_pow]
  omega

theorem winField_toNat (word : Word) : (winField word).toNat = word.toNat / 2 ^ 12 % 2 ^ 12 := by
  simp [winField, BitVec.extractLsb'_toNat, Nat.shiftRight_eq_div_pow]

theorem divField_toNat (word : Word) : (divField word).toNat = word.toNat % 2 ^ 12 := by
  simp [divField, BitVec.extractLsb'_toNat]

theorem z8Field_toNat (word : Word) : (z8Field word).toNat = word.toNat / 2 ^ 16 % 2 ^ 8 := by
  simp [z8Field, BitVec.extractLsb'_toNat, Nat.shiftRight_eq_div_pow]

theorem sampleField_toNat (word : Word) : (sampleField word).toNat = word.toNat % 2 ^ 16 := by
  simp [sampleField, BitVec.extractLsb'_toNat]

theorem z24Field_toNat (word : Word) : (z24Field word).toNat = word.toNat % 2 ^ 24 := by
  simp [z24Field, BitVec.extractLsb'_toNat]

/-- Sign extension by the number of the field (00_scope.md section 6). -/
theorem sext_eq_signedField {n : Nat} (v : BitVec (n + 1)) : sext v = signedField (n + 1) v.toNat := by
  unfold sext signedField
  rw [BitVec.toInt_eq_toNat_cond]
  have : 2 ^ (n + 1) = 2 * 2 ^ n := by ring
  split <;> split <;> first | (push_cast; rfl) | (exfalso; simp at *; omega)

theorem signedField_cases (n v : Nat) :
    (v < 2 ^ (n - 1) ∧ signedField n v = v) ∨ (2 ^ (n - 1) ≤ v ∧ signedField n v = v - 2 ^ n) := by
  unfold signedField
  split <;> simp_all

theorem signedField_emod_12 {v : Int} (lo : -2048 ≤ v) (hi : v ≤ 2047) : signedField 12 (v % 4096).toNat = v := by
  unfold signedField
  split <;> simp at * <;> omega

theorem signedField_emod_16 {v : Int} (lo : -32768 ≤ v) (hi : v ≤ 32767) : signedField 16 (v % 65536).toNat = v := by
  unfold signedField
  split <;> simp at * <;> omega

/-! ### Decoding -/

/-- Decoding in terms of the word's number: the chain of tests of R53. -/
theorem decode_eq (word : Word) : decode word =
    if word.toNat / 2 ^ 24 = 0x01 then
      .ok (.construct (signedField 12 (word.toNat / 2 ^ 12 % 2 ^ 12)) (signedField 12 (word.toNat % 2 ^ 12)))
    else if word.toNat / 2 ^ 24 = 0x02 then
      if word.toNat / 2 ^ 16 % 2 ^ 8 = 0 then .ok (.update (signedField 16 (word.toNat % 2 ^ 16)))
      else .error .updateZ8NotZero
    else if word.toNat / 2 ^ 24 = 0x03 then
      if word.toNat % 2 ^ 24 = 0 then .ok .magnitude else .error .magnitudeZ24NotZero
    else .error (.noSuchOpcode (opField word)) := by
  unfold decode
  rw [← opField_toNat, ← winField_toNat, ← divField_toNat, ← z8Field_toNat, ← sampleField_toNat, ← z24Field_toNat,
    ← sext_eq_signedField, ← sext_eq_signedField, ← sext_eq_signedField]
  have e1 : opField word = 1 ↔ (opField word).toNat = 1 := by rw [← BitVec.toNat_inj]; rfl
  have e2 : opField word = 2 ↔ (opField word).toNat = 2 := by rw [← BitVec.toNat_inj]; rfl
  have e3 : opField word = 3 ↔ (opField word).toNat = 3 := by rw [← BitVec.toNat_inj]; rfl
  have e4 : z8Field word = 0 ↔ (z8Field word).toNat = 0 := by rw [← BitVec.toNat_inj]; rfl
  have e5 : z24Field word = 0 ↔ (z24Field word).toNat = 0 := by rw [← BitVec.toNat_inj]; rfl
  simp only [e1, e2, e3, e4, e5]

/-! ### Well-formedness and encoding -/

theorem wellFormed_construct (w d : Int) :
    (Instr.construct w d).wellFormed = true ↔ (-2048 ≤ w ∧ w ≤ 2047) ∧ (-2048 ≤ d ∧ d ≤ 2047) := by
  simp [Instr.wellFormed, Instr.fits12]

theorem wellFormed_update (s : Int) : (Instr.update s).wellFormed = true ↔ (-32768 ≤ s ∧ s ≤ 32767) := by
  simp [Instr.wellFormed, Instr.fits16]

theorem append_toNat {m n : Nat} (x : BitVec m) (y : BitVec n) : (x ++ y).toNat = x.toNat * 2 ^ n + y.toNat := by
  rw [BitVec.toNat_append, ← Nat.shiftLeft_add_eq_or_of_lt y.isLt, Nat.shiftLeft_eq]

/-- The number of a CONSTRUCT's word, for any operands: each field holds its operand's low bits. -/
theorem encode_construct_toNat (w d : Int) :
    ((encode (.construct w d)).toNat : Int) = 0x01000000 + w % 4096 * 4096 + d % 4096 := by
  simp only [encode, append_toNat, BitVec.toNat_ofInt, show (0x01 : BitVec 8).toNat = 1 from rfl]
  norm_num
  omega

theorem encode_update_toNat (s : Int) : ((encode (.update s)).toNat : Int) = 0x02000000 + s % 65536 := by
  simp only [encode, append_toNat, BitVec.toNat_ofInt, show (0x02 : BitVec 8).toNat = 2 from rfl,
    show (0x00 : BitVec 8).toNat = 0 from rfl]
  norm_num
  omega

theorem encode_magnitude_toNat : (encode .magnitude).toNat = 0x03000000 := by decide

end Sys2Proof
end

