-- ==== Sys2Proof/Laws/State.lean ====
section
/-! SUPPORT. The small lemmas of the state's updates: what each one changes and leaves, field by field, so that no later
proof unfolds a record update. -/

namespace Sys2Proof.Machine

@[simp] theorem State.respond_valid (r : Response) (s : State) : (s.respond r).valid = s.valid := rfl
@[simp] theorem State.respond_window (r : Response) (s : State) : (s.respond r).window = s.window := rfl
@[simp] theorem State.respond_divisor (r : Response) (s : State) : (s.respond r).divisor = s.divisor := rfl
@[simp] theorem State.respond_cos (r : Response) (s : State) : (s.respond r).cos = s.cos := rfl
@[simp] theorem State.respond_sin (r : Response) (s : State) : (s.respond r).sin = s.sin := rfl
@[simp] theorem State.respond_xb (r : Response) (s : State) : (s.respond r).xb = s.xb := rfl
@[simp] theorem State.respond_yb (r : Response) (s : State) : (s.respond r).yb = s.yb := rfl
@[simp] theorem State.respond_accX (r : Response) (s : State) : (s.respond r).accX = s.accX := rfl
@[simp] theorem State.respond_accY (r : Response) (s : State) : (s.respond r).accY = s.accY := rfl
@[simp] theorem State.respond_phase (r : Response) (s : State) : (s.respond r).phase = s.phase := rfl
@[simp] theorem State.respond_bufpos (r : Response) (s : State) : (s.respond r).bufpos = s.bufpos := rfl
@[simp] theorem State.respond_draws (r : Response) (s : State) : (s.respond r).draws = s.draws := rfl
@[simp] theorem State.respond_commands (r : Response) (s : State) : (s.respond r).commands = s.commands := rfl
@[simp] theorem State.respond_responses (r : Response) (s : State) : (s.respond r).responses = s.responses ++ [r] := rfl

@[simp] theorem State.setValid_valid (s : State) : (s.setValid).valid = true := rfl
@[simp] theorem State.setValid_window (s : State) : (s.setValid).window = s.window := rfl
@[simp] theorem State.setValid_divisor (s : State) : (s.setValid).divisor = s.divisor := rfl
@[simp] theorem State.setValid_cos (s : State) : (s.setValid).cos = s.cos := rfl
@[simp] theorem State.setValid_sin (s : State) : (s.setValid).sin = s.sin := rfl
@[simp] theorem State.setValid_xb (s : State) : (s.setValid).xb = s.xb := rfl
@[simp] theorem State.setValid_yb (s : State) : (s.setValid).yb = s.yb := rfl
@[simp] theorem State.setValid_accX (s : State) : (s.setValid).accX = s.accX := rfl
@[simp] theorem State.setValid_accY (s : State) : (s.setValid).accY = s.accY := rfl
@[simp] theorem State.setValid_phase (s : State) : (s.setValid).phase = s.phase := rfl
@[simp] theorem State.setValid_bufpos (s : State) : (s.setValid).bufpos = s.bufpos := rfl
@[simp] theorem State.setValid_draws (s : State) : (s.setValid).draws = s.draws := rfl
@[simp] theorem State.setValid_commands (s : State) : (s.setValid).commands = s.commands := rfl
@[simp] theorem State.setValid_responses (s : State) : (s.setValid).responses = s.responses := rfl

@[simp] theorem State.clearValid_valid (s : State) : (s.clearValid).valid = false := rfl
@[simp] theorem State.clearValid_window (s : State) : (s.clearValid).window = s.window := rfl
@[simp] theorem State.clearValid_divisor (s : State) : (s.clearValid).divisor = s.divisor := rfl
@[simp] theorem State.clearValid_cos (s : State) : (s.clearValid).cos = s.cos := rfl
@[simp] theorem State.clearValid_sin (s : State) : (s.clearValid).sin = s.sin := rfl
@[simp] theorem State.clearValid_xb (s : State) : (s.clearValid).xb = s.xb := rfl
@[simp] theorem State.clearValid_yb (s : State) : (s.clearValid).yb = s.yb := rfl
@[simp] theorem State.clearValid_accX (s : State) : (s.clearValid).accX = s.accX := rfl
@[simp] theorem State.clearValid_accY (s : State) : (s.clearValid).accY = s.accY := rfl
@[simp] theorem State.clearValid_phase (s : State) : (s.clearValid).phase = s.phase := rfl
@[simp] theorem State.clearValid_bufpos (s : State) : (s.clearValid).bufpos = s.bufpos := rfl
@[simp] theorem State.clearValid_draws (s : State) : (s.clearValid).draws = s.draws := rfl
@[simp] theorem State.clearValid_commands (s : State) : (s.clearValid).commands = s.commands := rfl
@[simp] theorem State.clearValid_responses (s : State) : (s.clearValid).responses = s.responses := rfl

@[simp] theorem State.construct_valid (w d : Nat) (s : State) : (s.construct w d).valid = true := rfl
@[simp] theorem State.construct_window (w d : Nat) (s : State) : (s.construct w d).window = BitVec.ofNat 9 w := rfl
@[simp] theorem State.construct_divisor (w d : Nat) (s : State) : (s.construct w d).divisor = BitVec.ofNat 9 d := rfl
@[simp] theorem State.construct_cos (w d : Nat) (s : State) : (s.construct w d).cos = Bank.fill d (fun i => BitVec.ofInt 8 (clockCos d i)) (Config.freeCos s.draws) := rfl
@[simp] theorem State.construct_sin (w d : Nat) (s : State) : (s.construct w d).sin = Bank.fill d (fun i => BitVec.ofInt 8 (clockSin d i)) (Config.freeSin s.draws) := rfl
@[simp] theorem State.construct_xb (w d : Nat) (s : State) : (s.construct w d).xb = Bank.fill w (fun _ => 0) (Config.freeXB s.draws) := rfl
@[simp] theorem State.construct_yb (w d : Nat) (s : State) : (s.construct w d).yb = Bank.fill w (fun _ => 0) (Config.freeYB s.draws) := rfl
@[simp] theorem State.construct_accX (w d : Nat) (s : State) : (s.construct w d).accX = 0 := rfl
@[simp] theorem State.construct_accY (w d : Nat) (s : State) : (s.construct w d).accY = 0 := rfl
@[simp] theorem State.construct_phase (w d : Nat) (s : State) : (s.construct w d).phase = 0 := rfl
@[simp] theorem State.construct_bufpos (w d : Nat) (s : State) : (s.construct w d).bufpos = 0 := rfl
@[simp] theorem State.construct_draws (w d : Nat) (s : State) : (s.construct w d).draws = s.draws + 1 := rfl
@[simp] theorem State.construct_commands (w d : Nat) (s : State) : (s.construct w d).commands = s.commands := rfl
@[simp] theorem State.construct_responses (w d : Nat) (s : State) : (s.construct w d).responses = s.responses := rfl

@[simp] theorem State.writeLanes_valid (x y : BufEntry × Acc) (s : State) : (s.writeLanes x y).valid = s.valid := rfl
@[simp] theorem State.writeLanes_window (x y : BufEntry × Acc) (s : State) : (s.writeLanes x y).window = s.window := rfl
@[simp] theorem State.writeLanes_divisor (x y : BufEntry × Acc) (s : State) : (s.writeLanes x y).divisor = s.divisor := rfl
@[simp] theorem State.writeLanes_cos (x y : BufEntry × Acc) (s : State) : (s.writeLanes x y).cos = s.cos := rfl
@[simp] theorem State.writeLanes_sin (x y : BufEntry × Acc) (s : State) : (s.writeLanes x y).sin = s.sin := rfl
@[simp] theorem State.writeLanes_xb (x y : BufEntry × Acc) (s : State) : (s.writeLanes x y).xb = memWrite s.xb s.bufpos x.1 := rfl
@[simp] theorem State.writeLanes_yb (x y : BufEntry × Acc) (s : State) : (s.writeLanes x y).yb = memWrite s.yb s.bufpos y.1 := rfl
@[simp] theorem State.writeLanes_accX (x y : BufEntry × Acc) (s : State) : (s.writeLanes x y).accX = x.2 := rfl
@[simp] theorem State.writeLanes_accY (x y : BufEntry × Acc) (s : State) : (s.writeLanes x y).accY = y.2 := rfl
@[simp] theorem State.writeLanes_phase (x y : BufEntry × Acc) (s : State) : (s.writeLanes x y).phase = nextIndex s.phase s.divisor := rfl
@[simp] theorem State.writeLanes_bufpos (x y : BufEntry × Acc) (s : State) : (s.writeLanes x y).bufpos = nextIndex s.bufpos s.window := rfl
@[simp] theorem State.writeLanes_draws (x y : BufEntry × Acc) (s : State) : (s.writeLanes x y).draws = s.draws := rfl
@[simp] theorem State.writeLanes_commands (x y : BufEntry × Acc) (s : State) : (s.writeLanes x y).commands = s.commands := rfl
@[simp] theorem State.writeLanes_responses (x y : BufEntry × Acc) (s : State) : (s.writeLanes x y).responses = s.responses := rfl

@[simp] theorem State.pulseReset_valid (s : State) : (s.pulseReset).valid = false := rfl
@[simp] theorem State.pulseReset_window (s : State) : (s.pulseReset).window = Config.freeWindow s.draws := rfl
@[simp] theorem State.pulseReset_divisor (s : State) : (s.pulseReset).divisor = Config.freeDivisor s.draws := rfl
@[simp] theorem State.pulseReset_cos (s : State) : (s.pulseReset).cos = Bank.tabulate (Config.freeCos s.draws) := rfl
@[simp] theorem State.pulseReset_sin (s : State) : (s.pulseReset).sin = Bank.tabulate (Config.freeSin s.draws) := rfl
@[simp] theorem State.pulseReset_xb (s : State) : (s.pulseReset).xb = Bank.tabulate (Config.freeXB s.draws) := rfl
@[simp] theorem State.pulseReset_yb (s : State) : (s.pulseReset).yb = Bank.tabulate (Config.freeYB s.draws) := rfl
@[simp] theorem State.pulseReset_accX (s : State) : (s.pulseReset).accX = Config.freeAccX s.draws := rfl
@[simp] theorem State.pulseReset_accY (s : State) : (s.pulseReset).accY = Config.freeAccY s.draws := rfl
@[simp] theorem State.pulseReset_phase (s : State) : (s.pulseReset).phase = Config.freePhase s.draws := rfl
@[simp] theorem State.pulseReset_bufpos (s : State) : (s.pulseReset).bufpos = Config.freeBufpos s.draws := rfl
@[simp] theorem State.pulseReset_draws (s : State) : (s.pulseReset).draws = s.draws + 1 := rfl
@[simp] theorem State.pulseReset_commands (s : State) : (s.pulseReset).commands = s.commands := rfl
@[simp] theorem State.pulseReset_responses (s : State) : (s.pulseReset).responses = s.responses := rfl

@[simp] theorem State.present_valid (n v : Nat) (s : State) : (s.present n v).valid = s.valid := rfl
@[simp] theorem State.present_window (n v : Nat) (s : State) : (s.present n v).window = s.window := rfl
@[simp] theorem State.present_divisor (n v : Nat) (s : State) : (s.present n v).divisor = s.divisor := rfl
@[simp] theorem State.present_cos (n v : Nat) (s : State) : (s.present n v).cos = s.cos := rfl
@[simp] theorem State.present_sin (n v : Nat) (s : State) : (s.present n v).sin = s.sin := rfl
@[simp] theorem State.present_xb (n v : Nat) (s : State) : (s.present n v).xb = s.xb := rfl
@[simp] theorem State.present_yb (n v : Nat) (s : State) : (s.present n v).yb = s.yb := rfl
@[simp] theorem State.present_accX (n v : Nat) (s : State) : (s.present n v).accX = s.accX := rfl
@[simp] theorem State.present_accY (n v : Nat) (s : State) : (s.present n v).accY = s.accY := rfl
@[simp] theorem State.present_phase (n v : Nat) (s : State) : (s.present n v).phase = s.phase := rfl
@[simp] theorem State.present_bufpos (n v : Nat) (s : State) : (s.present n v).bufpos = s.bufpos := rfl
@[simp] theorem State.present_draws (n v : Nat) (s : State) : (s.present n v).draws = s.draws := rfl
@[simp] theorem State.present_commands (n v : Nat) (s : State) : (s.present n v).commands = .command (BitVec.ofNat 32 (v % 2 ^ n)) :: s.commands := rfl
@[simp] theorem State.present_responses (n v : Nat) (s : State) : (s.present n v).responses = s.responses := rfl

@[simp] theorem State.configured_eq (s : State) : s.configured = s.valid := rfl

end Sys2Proof.Machine
end

