-- ==== Sys2Proof/Laws/Ops.lean ====
section
/-! SUPPORT. One lemma per shared operation: what reading and writing an array, narrowing into storage and advancing an
index can do. -/

namespace Sys2Proof.Machine

variable {w : Nat}

/-! ### Arrays: read after write, and nothing else changes -/

@[simp] theorem Bank.entry_tabulate (f : Nat → BitVec w) (j : Index) :
    Bank.entry (Bank.tabulate f) j = f j.toNat := by
  simp [Bank.tabulate, Bank.entry]

@[simp] theorem Bank.entry_fill (len : Nat) (value beyond : Nat → BitVec w) (j : Index) :
    Bank.entry (Bank.fill len value beyond) j = if j.toNat < len then value j.toNat else beyond j.toNat := by
  simp [Bank.fill]

@[simp] theorem entry_memWrite (a : Bank w) (i j : Index) (v : BitVec w) :
    Bank.entry (memWrite a i v) j = if i = j then v else Bank.entry a j := by
  simp [memWrite, Bank.entry, Vector.getElem_set, BitVec.toNat_inj]

/-- An array is what its 256 entries are. -/
theorem Bank.ext_entry {a b : Bank w} (h : ∀ j : Index, Bank.entry a j = Bank.entry b j) : a = b := by
  apply Vector.ext
  intro i hi
  have := h (BitVec.ofNat 8 i)
  simpa [Bank.entry, Nat.mod_eq_of_lt hi] using this

theorem memRead_eq_some_iff (a : Bank w) (len : Nat) (i : Index) (v : BitVec w) :
    memRead a len i = some v ↔ i.toNat < len ∧ Bank.entry a i = v := by
  simp [memRead]

theorem memRead_of_lt (a : Bank w) {len : Nat} {i : Index} (h : i.toNat < len) :
    memRead a len i = some (Bank.entry a i) := by
  simp [memRead, h]

theorem memRead_of_not_lt (a : Bank w) {len : Nat} {i : Index} (h : ¬ i.toNat < len) : memRead a len i = none := by
  simp [memRead, h]

/-! ### Storage widths and indices -/

/-- Narrowing keeps the exact value or gives nothing. -/
theorem narrow_eq_some_iff (v : Int) (b : BitVec w) : narrow w v = some b ↔ b.toInt = v := by
  unfold narrow
  constructor
  · intro h
    split at h
    · next hv => cases h; exact hv
    · cases h
  · intro h
    subst h
    simp [BitVec.ofInt_toInt]

theorem toInt_ofInt_of_fits {n : Nat} {v : Int} (lo : -2 ^ n ≤ v) (hi : v < 2 ^ n) :
    (BitVec.ofInt (n + 1) v).toInt = v := by
  rw [BitVec.toInt_ofInt]
  have h2 : ((2 ^ (n + 1) : Nat) : Int) = 2 * 2 ^ n := by push_cast; ring
  apply Int.bmod_eq_of_le <;> rw [h2] <;> omega

theorem narrow_of_fits {n : Nat} {v : Int} (lo : -2 ^ n ≤ v) (hi : v < 2 ^ n) :
    narrow (n + 1) v = some (BitVec.ofInt (n + 1) v) :=
  (narrow_eq_some_iff v _).2 (toInt_ofInt_of_fits lo hi)

theorem nextIndex_toNat (i : Index) {m : ConfigReg} (lo : 1 ≤ m.toNat) (hi : m.toNat ≤ 256) :
    (nextIndex i m).toNat = (i.toNat + 1) % m.toNat := by
  have : (i.toNat + 1) % m.toNat < 256 := lt_of_lt_of_le (Nat.mod_lt _ lo) hi
  simp [nextIndex, Nat.mod_eq_of_lt this]

/-! ### The sum of an array's entries -/

theorem Bank.prefixSum_memWrite (a : Bank w) {i : Index} (v : BitVec w) {n : Nat} (hi : i.toNat < n) (hn : n ≤ 256) :
    Bank.prefixSum (memWrite a i v) n = Bank.prefixSum a n - (Bank.entry a i).toInt + v.toInt := by
  have key : ∀ k ∈ Finset.range n, (Bank.entry (memWrite a i v) (BitVec.ofNat 8 k)).toInt
      = (Bank.entry a (BitVec.ofNat 8 k)).toInt + if k = i.toNat then v.toInt - (Bank.entry a i).toInt else 0 := by
    intro k hk
    have hk : k < 256 := lt_of_lt_of_le (Finset.mem_range.1 hk) hn
    by_cases h : k = i.toNat
    · subst h; simp
    · have : i ≠ BitVec.ofNat 8 k := by
        rintro rfl
        exact h (by simp [Nat.mod_eq_of_lt hk])
      simp [h, this]
  unfold Bank.prefixSum
  rw [Finset.sum_congr rfl key, Finset.sum_add_distrib, Finset.sum_ite_eq']
  simp [hi]
  ring

theorem Bank.prefixSum_eq_zero {a : Bank w} {n : Nat} (hn : n ≤ 256)
    (h : ∀ j : Index, j.toNat < n → Bank.entry a j = 0) : Bank.prefixSum a n = 0 := by
  apply Finset.sum_eq_zero
  intro k hk
  have hk := Finset.mem_range.1 hk
  rw [h]
  · simp
  · simpa [Nat.mod_eq_of_lt (lt_of_lt_of_le hk hn)] using hk

theorem Bank.prefixSum_congr {a b : Bank w} {n : Nat} (hn : n ≤ 256)
    (h : SameEntries n a b) : Bank.prefixSum a n = Bank.prefixSum b n := by
  apply Finset.sum_congr rfl
  intro k hk
  have hk := Finset.mem_range.1 hk
  rw [h]
  simpa [Nat.mod_eq_of_lt (lt_of_lt_of_le hk hn)] using hk

end Sys2Proof.Machine
end

