-- ==== Sys2Proof/Laws/Exec.lean ====
section
/-! SUPPORT. What each command, and one step, can do: one lemma each, which later proofs cite instead of unfolding. -/

namespace Sys2Proof.Machine

variable {s t : State}

/-! ### CONSTRUCT -/

theorem constructLegal_iff {window divisor : Int} :
    constructLegal window divisor = true ↔ 1 ≤ window ∧ window ≤ 256 ∧ 1 ≤ divisor ∧ divisor ≤ 256 := by
  simp only [constructLegal, Bool.and_eq_true, decide_eq_true_eq, and_assoc]
  rfl

theorem execConstruct_of_legal {window divisor : Int} (h : constructLegal window divisor = true) (s : State) :
    execConstruct window divisor s = .next ((s.construct window.toNat divisor.toNat).respond ⟨.ok, 0⟩) := by
  simp [execConstruct, h, answerOk]

theorem execConstruct_of_not_legal {window divisor : Int} (h : constructLegal window divisor = false) (s : State) :
    execConstruct window divisor s = .next (s.clearValid.respond ⟨.errConfig, 0⟩) := by
  simp [execConstruct, h, raiseError]

/-! ### UPDATE -/

theorem sampleLegal_iff {sample : Int} : sampleLegal sample = true ↔ -128 ≤ sample ∧ sample ≤ 127 := by
  simp only [sampleLegal, Bool.and_eq_true, decide_eq_true_eq]
  rfl

theorem configLegal_iff : s.configLegal = true ↔
    1 ≤ s.window.toNat ∧ s.window.toNat ≤ 256 ∧ 1 ≤ s.divisor.toNat ∧ s.divisor.toNat ≤ 256 := by
  simp [State.configLegal, and_assoc]

/-- A lane's result: the exact product and the exact new accumulator, or nothing. -/
theorem laneUpdate_eq_some_iff {sample : Int} {clock : ClockEntry} {evicted vec : BufEntry} {acc raised : Acc} :
    laneUpdate sample clock evicted acc = some (vec, raised) ↔
      vec.toInt = sample * clock.toInt ∧ raised.toInt = acc.toInt - evicted.toInt + sample * clock.toInt ∧
        ∃ lowered : Acc, lowered.toInt = acc.toInt - evicted.toInt := by
  constructor
  · intro h
    unfold laneUpdate at h
    split at h
    · next v l hv hl =>
      split at h
      · next r hr =>
        cases h
        rw [narrow_eq_some_iff] at hv hl hr
        exact ⟨hv, by rw [hr, hl, hv], l, hl⟩
      · cases h
    · cases h
  · rintro ⟨hv, hr, l, hl⟩
    have h1 := (narrow_eq_some_iff _ _).2 hv
    have h2 := (narrow_eq_some_iff _ _).2 hl
    have h3 : narrow 32 (l.toInt + vec.toInt) = some raised := by rw [narrow_eq_some_iff, hr, hl, hv]
    simp [laneUpdate, h1, h2, h3]

theorem execUpdate_of_not_valid (h : s.valid = false) (sample : Int) :
    execUpdate sample s = .next (s.respond ⟨.errNotConfigured, 0⟩) := by
  simp [execUpdate, h, raiseError]

theorem execUpdate_of_not_legal (h : s.valid = true) {sample : Int} (hs : sampleLegal sample = false) :
    execUpdate sample s = .next (s.respond ⟨.errDomain, 0⟩) := by
  simp [execUpdate, h, hs, raiseError]

/-- When the indices are in range and the lanes' results fit, the seven steps complete. -/
theorem execUpdate_of_fits {sample : Int} {x y : BufEntry × Acc} (h : s.valid = true) (hs : sampleLegal sample = true)
    (hc : s.configLegal = true) (hp : s.phase.toNat < s.divisor.toNat) (hb : s.bufpos.toNat < s.window.toNat)
    (hx : laneUpdate sample (Bank.entry s.cos s.phase) (Bank.entry s.xb s.bufpos) s.accX = some x)
    (hy : laneUpdate sample (Bank.entry s.sin s.phase) (Bank.entry s.yb s.bufpos) s.accY = some y) :
    execUpdate sample s = .next ((s.writeLanes x y).respond ⟨.ok, 0⟩) := by
  simp [execUpdate, h, hs, admitSample, hc, memRead_of_lt _ hp, memRead_of_lt _ hb, hx, hy, answerOk]

/-- Everything an UPDATE that gives a next state can have done. -/
theorem execUpdate_cases {sample : Int} (h : execUpdate sample s = .next t) :
    (s.valid = false ∧ t = s.respond ⟨.errNotConfigured, 0⟩) ∨
    (s.valid = true ∧ sampleLegal sample = false ∧ t = s.respond ⟨.errDomain, 0⟩) ∨
    (s.valid = true ∧ sampleLegal sample = true ∧ s.configLegal = true ∧ s.phase.toNat < s.divisor.toNat ∧
      s.bufpos.toNat < s.window.toNat ∧ ∃ x y : BufEntry × Acc,
        laneUpdate sample (Bank.entry s.cos s.phase) (Bank.entry s.xb s.bufpos) s.accX = some x ∧
        laneUpdate sample (Bank.entry s.sin s.phase) (Bank.entry s.yb s.bufpos) s.accY = some y ∧
        t = (s.writeLanes x y).respond ⟨.ok, 0⟩) := by
  cases hv : s.valid with
  | false =>
    rw [execUpdate_of_not_valid hv] at h
    cases h
    exact .inl ⟨rfl, rfl⟩
  | true =>
    refine .inr ?_
    cases hs : sampleLegal sample with
    | false =>
      rw [execUpdate_of_not_legal hv hs] at h
      cases h
      exact .inl ⟨rfl, rfl, rfl⟩
    | true =>
      refine .inr ⟨rfl, rfl, ?_⟩
      simp only [execUpdate, State.configured_eq, hv, hs, if_true, admitSample] at h
      split at h
      · next hc =>
        split at h
        · next cx cy ox oy hcx hcy hox hoy =>
          rw [memRead_eq_some_iff] at hcx hcy hox hoy
          obtain ⟨hp, rfl⟩ := hcx
          obtain ⟨-, rfl⟩ := hcy
          obtain ⟨hb, rfl⟩ := hox
          obtain ⟨-, rfl⟩ := hoy
          split at h
          · next x y hx hy =>
            cases h
            exact ⟨hc, hp, hb, x, y, hx, hy, rfl⟩
          · cases h
        · cases h
      · cases h

/-! ### MAGNITUDE -/

theorem execMagnitude_of_valid (h : s.valid = true) :
    execMagnitude s = .next (s.respond ⟨.ok, BitVec.ofNat 32 (magnitude s.accX.toInt s.accY.toInt)⟩) := by
  simp [execMagnitude, h, answerOk]

theorem execMagnitude_of_not_valid (h : s.valid = false) :
    execMagnitude s = .next (s.respond ⟨.errNotConfigured, 0⟩) := by
  simp [execMagnitude, h, raiseError]

/-! ### One step -/

/-- Everything a step does, by what the ports offer it. -/
theorem step_eq (s : State) : step s =
    match s.commands with
    | [] => .next s
    | .reset :: rest => .next ({ s with commands := rest } : State).pulseReset
    | .command word :: rest =>
      match decode word with
      | .ok i => exec i { s with commands := rest }
      | .error _ => .next (({ s with commands := rest } : State).respond ⟨.errIllegal, 0⟩) := by
  unfold step State.accept
  cases s.commands with
  | nil => rfl
  | cons e rest =>
    cases e with
    | reset => rfl
    | command word =>
      simp only
      cases decode word <;> rfl

theorem step_of_command {word : Word} {rest : List HostEvent} {i : Instr} (hc : s.commands = .command word :: rest)
    (hd : decode word = .ok i) : step s = exec i { s with commands := rest } := by
  rw [step_eq, hc]
  simp only [hd]

theorem step_of_illegal {word : Word} {rest : List HostEvent} {e : DecodeError}
    (hc : s.commands = .command word :: rest) (hd : decode word = .error e) :
    step s = .next (({ s with commands := rest } : State).respond ⟨.errIllegal, 0⟩) := by
  rw [step_eq, hc]
  simp only [hd]

theorem step_of_reset {rest : List HostEvent} (hc : s.commands = .reset :: rest) :
    step s = .next ({ s with commands := rest } : State).pulseReset := by
  rw [step_eq, hc]

theorem step_of_idle (hc : s.commands = []) : step s = .next s := by
  rw [step_eq, hc]

end Sys2Proof.Machine
end

