-- ==== Sys2Proof/Laws/Filter.lean ====
section
/-! SUPPORT. What a command and a step can do, case by case, and what the invariants of a configured core give an
UPDATE. -/

namespace Sys2Proof.Machine

variable {s t : State}

/-- A response changes no element, so it keeps the invariants. -/
theorem filterInv_respond (r : Response) : FilterInv (s.respond r) ↔ FilterInv s := Iff.rfl

/-- The clock entries of a configured core are in [-127, 127] (R62). -/
theorem clock_bounds (h : FilterInv s) (hv : s.valid = true) {j : Index} (hj : j.toNat < s.divisor.toNat) :
    (-127 ≤ (Bank.entry s.cos j).toInt ∧ (Bank.entry s.cos j).toInt ≤ 127) ∧
      (-127 ≤ (Bank.entry s.sin j).toInt ∧ (Bank.entry s.sin j).toInt ≤ 127) := by
  obtain ⟨⟨-, -, h3, -, -, -⟩, -, -, -, ht⟩ := h hv
  rw [(ht j hj).1, (ht j hj).2]
  exact ⟨clockCos_range hj, clockSin_range h3 _⟩

/-- One lane completes, exactly, from the bounds of R18, R20 and R62. -/
theorem laneUpdate_of_bounds {x : Int} {c : ClockEntry} {o : BufEntry} {a : Acc} (hx : -128 ≤ x ∧ x ≤ 127)
    (hc : -127 ≤ c.toInt ∧ c.toInt ≤ 127) (ho : -16256 ≤ o.toInt ∧ o.toInt ≤ 16256) (ha : a.toInt.natAbs ≤ 4161536) :
    laneUpdate x c o a = some (BitVec.ofInt 16 (x * c.toInt), BitVec.ofInt 32 (a.toInt - o.toInt + x * c.toInt)) := by
  have hp : -16256 ≤ x * c.toInt ∧ x * c.toInt ≤ 16256 := by constructor <;> nlinarith
  have h1 := toInt_ofInt_of_fits (n := 15) (v := x * c.toInt) (by omega) (by omega)
  have h2 := toInt_ofInt_of_fits (n := 31) (v := a.toInt - o.toInt) (by omega) (by omega)
  have h3 := toInt_ofInt_of_fits (n := 31) (v := a.toInt - o.toInt + x * c.toInt) (by omega) (by omega)
  rw [laneUpdate_eq_some_iff]
  exact ⟨h1, h3, _, h2⟩

/-- With a legal sample a lane completes exactly where both accumulator values fit 32 bits; the product always fits. -/
theorem exists_laneUpdate_iff {x : Int} {c : ClockEntry} {o : BufEntry} {a : Acc} (hx : -128 ≤ x ∧ x ≤ 127) :
    (∃ r, laneUpdate x c o a = some r) ↔ Fits32 (a.toInt - o.toInt) ∧ Fits32 (a.toInt - o.toInt + x * c.toInt) := by
  constructor
  · rintro ⟨⟨v, r⟩, h⟩
    obtain ⟨-, h2, l, h3⟩ := laneUpdate_eq_some_iff.1 h
    rw [← h3] at h2 ⊢
    rw [← h2]
    exact ⟨⟨BitVec.le_toInt l, BitVec.toInt_lt⟩, BitVec.le_toInt r, BitVec.toInt_lt⟩
  · rintro ⟨h1, h2⟩
    have lo := BitVec.le_toInt c
    have hi := BitVec.toInt_lt (x := c)
    have hp : -16384 ≤ x * c.toInt ∧ x * c.toInt ≤ 16384 := by
      norm_num at lo hi
      constructor <;> nlinarith
    have e1 := toInt_ofInt_of_fits (n := 15) (v := x * c.toInt) (by omega) (by omega)
    have e2 := toInt_ofInt_of_fits (n := 31) h1.1 h1.2
    have e3 := toInt_ofInt_of_fits (n := 31) h2.1 h2.2
    exact ⟨(_, _), laneUpdate_eq_some_iff.2 ⟨e1, e3, _, e2⟩⟩

/-- An UPDATE with a legal sample, from the invariants: it completes, and each lane's results are exact. -/
theorem execUpdate_of_inv {x : Int} (h : FilterInv s) (hv : s.valid = true) (hx : -128 ≤ x ∧ x ≤ 127) :
    ∃ p q : BufEntry × Acc, execUpdate x s = .next ((s.writeLanes p q).respond ⟨.ok, 0⟩) ∧
      p.1.toInt = x * (Bank.entry s.cos s.phase).toInt ∧ q.1.toInt = x * (Bank.entry s.sin s.phase).toInt ∧
      p.2.toInt = s.accX.toInt - (Bank.entry s.xb s.bufpos).toInt + x * (Bank.entry s.cos s.phase).toInt ∧
      q.2.toInt = s.accY.toInt - (Bank.entry s.yb s.bufpos).toInt + x * (Bank.entry s.sin s.phase).toInt := by
  obtain ⟨⟨h1, h2, h3, h4, h5, h6⟩, hb, -, hab, -⟩ := h hv
  obtain ⟨hc, hs⟩ := clock_bounds h hv h5
  obtain ⟨ho, ho'⟩ := hb _ h6
  have l1 := laneUpdate_of_bounds hx hc ho (by omega : s.accX.toInt.natAbs ≤ 4161536)
  have l2 := laneUpdate_of_bounds hx hs ho' (by omega : s.accY.toInt.natAbs ≤ 4161536)
  refine ⟨_, _, execUpdate_of_fits hv (sampleLegal_iff.2 hx) (configLegal_iff.2 ⟨h1, h2, h3, h4⟩) h5 h6 l1 l2, ?_⟩
  obtain ⟨a1, a2, -⟩ := laneUpdate_eq_some_iff.1 l1
  obtain ⟨b1, b2, -⟩ := laneUpdate_eq_some_iff.1 l2
  exact ⟨a1, b1, a2, b2⟩

/-- Everything a command that gives a next state can have done. -/
theorem exec_cases {i : Instr} (e : exec i s = .next t) :
    (∃ w d, i = .construct w d ∧ constructLegal w d = true ∧
      t = (s.construct w.toNat d.toNat).respond ⟨.ok, 0⟩) ∨
    (∃ w d, i = .construct w d ∧ constructLegal w d = false ∧ t = s.clearValid.respond ⟨.errConfig, 0⟩) ∨
    (∃ x p q, i = .update x ∧ s.valid = true ∧ sampleLegal x = true ∧ t = (s.writeLanes p q).respond ⟨.ok, 0⟩) ∨
    (∃ x, i = .update x ∧ s.valid = true ∧ sampleLegal x = false ∧ t = s.respond ⟨.errDomain, 0⟩) ∨
    (i = .magnitude ∧ s.valid = true ∧
      t = s.respond ⟨.ok, BitVec.ofNat 32 (magnitude s.accX.toInt s.accY.toInt)⟩) ∨
    (s.valid = false ∧ ((∃ x, i = .update x) ∨ i = .magnitude) ∧ t = s.respond ⟨.errNotConfigured, 0⟩) := by
  cases i with
  | construct w d =>
    change execConstruct w d s = _ at e
    cases hl : constructLegal w d with
    | true =>
      rw [execConstruct_of_legal hl] at e
      cases e
      exact .inl ⟨w, d, rfl, hl, rfl⟩
    | false =>
      rw [execConstruct_of_not_legal hl] at e
      cases e
      exact .inr (.inl ⟨w, d, rfl, hl, rfl⟩)
  | update x =>
    rcases execUpdate_cases e with ⟨hv, rfl⟩ | ⟨hv, hs, rfl⟩ | ⟨hv, hs, -, -, -, p, q, -, -, rfl⟩
    · exact .inr (.inr (.inr (.inr (.inr ⟨hv, .inl ⟨x, rfl⟩, rfl⟩))))
    · exact .inr (.inr (.inr (.inl ⟨x, rfl, hv, hs, rfl⟩)))
    · exact .inr (.inr (.inl ⟨x, p, q, rfl, hv, hs, rfl⟩))
  | magnitude =>
    change execMagnitude s = _ at e
    cases hv : s.valid with
    | true =>
      rw [execMagnitude_of_valid hv] at e
      cases e
      exact .inr (.inr (.inr (.inr (.inl ⟨rfl, rfl, rfl⟩))))
    | false =>
      rw [execMagnitude_of_not_valid hv] at e
      cases e
      exact .inr (.inr (.inr (.inr (.inr ⟨rfl, .inr rfl, rfl⟩))))

/-- Everything a step that gives a next state can have done. -/
theorem step_cases (e : step s = .next t) :
    (s.commands = [] ∧ t = s) ∨
    (∃ rest, s.commands = .reset :: rest ∧ t = ({ s with commands := rest } : State).pulseReset) ∨
    (∃ word rest err, s.commands = .command word :: rest ∧ decode word = .error err ∧
      t = ({ s with commands := rest } : State).respond ⟨.errIllegal, 0⟩) ∨
    (∃ word rest i, s.commands = .command word :: rest ∧ decode word = .ok i ∧
      exec i ({ s with commands := rest } : State) = .next t) := by
  rw [step_eq] at e
  split at e
  · next h => cases e; exact .inl ⟨h, rfl⟩
  · next rest h => cases e; exact .inr (.inl ⟨rest, h, rfl⟩)
  · next word rest h =>
    split at e
    · next i hd => exact .inr (.inr (.inr ⟨word, rest, i, h, hd, e⟩))
    · next err hd => cases e; exact .inr (.inr (.inl ⟨word, rest, err, h, hd, rfl⟩))

end Sys2Proof.Machine
end

