-- ==== Sys2Proof/Laws/PerInstr.lean ====
section
/-! SUPPORT. A law stated per instruction: the opcode field of every command's word (R46). -/

namespace Sys2Proof.Laws.OpcodeField

/-- The opcode of the format of each command (R46). -/
def opcode : Instr → Nat
  | .construct _ _ => 0x01
  | .update _ => 0x02
  | .magnitude => 0x03

/-- cmd[31:24] of a command's word is its opcode, whatever the operands. -/
def Statement (i : Instr) : Prop := (encode i).toNat / 2 ^ 24 = opcode i

end Sys2Proof.Laws.OpcodeField

namespace Sys2Proof

theorem Laws.OpcodeField.construct (w d : Int) : Laws.OpcodeField.Statement (.construct w d) := by
  have h := encode_construct_toNat w d
  simp only [Laws.OpcodeField.Statement, Laws.OpcodeField.opcode]
  omega

theorem Laws.OpcodeField.update (s : Int) : Laws.OpcodeField.Statement (.update s) := by
  have h := encode_update_toNat s
  simp only [Laws.OpcodeField.Statement, Laws.OpcodeField.opcode]
  omega

theorem Laws.OpcodeField.magnitude : Laws.OpcodeField.Statement .magnitude := by
  show (encode .magnitude).toNat / 2 ^ 24 = 0x03
  decide

end Sys2Proof
end

