-- ==== Sys2Proof/Laws/Run.lean ====
section
/-! SUPPORT. A run of the machine, one step at a time: what `Host.Core.run` does on `Sys2Proof.core`. -/

namespace Sys2Proof.Machine

theorem run_succ_eq (M : Host.Core) (n : Nat) (s : M.State) :
    M.run (n + 1) s =
      match M.step s with
      | .next s' => M.run n s'
      | .fault r => .fault r
      | .refused r => .refused r := rfl

@[simp] theorem run_zero (s : State) : Host.Core.run core 0 s = .next s := rfl

theorem run_succ_of_next (n : Nat) {s t : State} (h : step s = .next t) :
    Host.Core.run core (n + 1) s = Host.Core.run core n t := by
  have h' : core.step s = .next t := h
  rw [run_succ_eq core n s, h']

theorem run_succ_of_fault (n : Nat) {s : State} {f : Fault} (h : step s = .fault f) :
    Host.Core.run core (n + 1) s = .fault f := by
  have h' : core.step s = .fault f := h
  rw [run_succ_eq core n s, h']

theorem run_succ_of_refused (n : Nat) {s : State} {r : Refusal} (h : step s = .refused r) :
    Host.Core.run core (n + 1) s = .refused r := by
  have h' : core.step s = .refused r := h
  rw [run_succ_eq core n s, h']

/-- A run of `m + n` steps is one of `m` and then one of `n`. -/
theorem run_add (m n : Nat) {s t : State} (h : Host.Core.run core m s = .next t) :
    Host.Core.run core (m + n) s = Host.Core.run core n t := by
  induction m generalizing s with
  | zero =>
    cases h
    rw [Nat.zero_add]
  | succ m ih =>
    rw [show m + 1 + n = (m + n) + 1 by omega]
    cases hs : step s with
    | next s' =>
      rw [run_succ_of_next _ hs] at h ⊢
      exact ih h
    | fault f => rw [run_succ_of_fault _ hs] at h; cases h
    | refused r => rw [run_succ_of_refused _ hs] at h; cases h

end Sys2Proof.Machine
end

