-- ==== Sys2Proof/Tests/Slice0.lean ====
section
/-! SUPPORT. Tests of this model: words written out from the encoding, ill-formed terms that WellFormed refuses, one step
at a time of the worked examples of spec/, and for every statement with hypotheses a witness that meets them. Expected
values come from spec/: 95_test_vectors.md, the corner-case tables and the clock table files. -/

namespace Sys2Proof.Tests

open Sys2Proof.Machine

/-! ### Decoding and encoding: words written out bit by bit from the formats of R46 -/

/-- Format C: OP 00000001, WIN 000000000100, DIV 000000000100 is CONSTRUCT 4, 4 (41_construct.md). -/
theorem test_decode_construct : decode 0b00000001_000000000100_000000000100 = .ok (.construct 4 4) := by decide
/-- WIN 111111111111 is -1 (R50). -/
theorem test_decode_construct_negative : decode 0b00000001_111111111111_000000000110 = .ok (.construct (-1) 6) := by decide
/-- WIN and DIV at the two ends of the field: 2047 and -2048. -/
theorem test_decode_construct_ends : decode 0b00000001_011111111111_100000000000 = .ok (.construct 2047 (-2048)) := by decide
/-- Format U: OP 00000010, Z8 0, SAMPLE 1111111110011100 is UPDATE -100. -/
theorem test_decode_update : decode 0b00000010_00000000_1111111110011100 = .ok (.update (-100)) := by decide
/-- SAMPLE 0000000010000000 is 128: the field is wider than the legal range (R48). -/
theorem test_decode_update_wide : decode 0b00000010_00000000_0000000010000000 = .ok (.update 128) := by decide
/-- Format M: OP 00000011, Z24 0 is MAGNITUDE. -/
theorem test_decode_magnitude : decode 0b00000011_000000000000000000000000 = .ok .magnitude := by decide
/-- Must-be-zero bits that are not zero make the word illegal, at both ends of each field (R52). -/
theorem test_decode_must_be_zero :
    decode 0x02010005 = .error .updateZ8NotZero ∧ decode 0x02800000 = .error .updateZ8NotZero ∧
      decode 0x03000001 = .error .magnitudeZ24NotZero ∧ decode 0x03800000 = .error .magnitudeZ24NotZero := by decide
/-- The opcodes beside the three commands are illegal, and so is a set bit 31 (R52). -/
theorem test_decode_no_opcode :
    decode 0x00000003 = .error (.noSuchOpcode 0x00) ∧ decode 0x04000000 = .error (.noSuchOpcode 0x04) ∧
      decode 0x81004004 = .error (.noSuchOpcode 0x81) ∧ decode 0xFFFFFFFF = .error (.noSuchOpcode 0xFF) := by decide
/-- The encoder gives the words of the table of 95_test_vectors.md section 2.1. -/
theorem test_encode :
    encode (.construct 256 256) = 0x01100100 ∧ encode (.construct (-2048) (-2048)) = 0x01800800 ∧
      encode (.construct 257 4) = 0x01101004 ∧ encode (.update (-129)) = 0x0200FF7F ∧
      encode (.update 32767) = 0x02007FFF ∧ encode .magnitude = 0x03000000 := by decide
/-- The host's question: the table's rows as numbers. -/
theorem test_decodeTableWord :
    decodeTableWord 32 0x01004004 = some (.construct 4 4) ∧ decodeTableWord 32 0x0200FF9C = some (.update (-100)) ∧
      decodeTableWord 32 0x03000000 = some .magnitude ∧ decodeTableWord 32 0x04000000 = none := by decide

/-- A command stream in the syntax of R55: both directives, a comment, blank lines, signs and hexadecimal. -/
theorem test_assemble :
    assemble ".reset\nCONSTRUCT 256, -1 ; boundary\n\n  UPDATE 0x64\nUPDATE -100\nMAGNITUDE\n.word 0x02010005" =
      .ok [.reset, .command 0x01100FFF, .command 0x02000064, .command 0x0200FF9C, .command 0x03000000,
        .command 0x02010005] := by decide +kernel
/-- An operand that does not fit is an assembly error, and so is a line of no form. -/
theorem test_assemble_errors :
    assemble "UPDATE 32768" = .error .cannotEncode ∧ assemble "UPDATE" = .error .badLine ∧
      assemble "CONSTRUCT 4 4" = .error .badLine := by decide +kernel

/-! ### WellFormed: one ill-formed term for each check -/

theorem test_wellFormed_refuses_window : (Instr.construct 2048 4).wellFormed = false := by decide
theorem test_wellFormed_refuses_window_low : (Instr.construct (-2049) 4).wellFormed = false := by decide
theorem test_wellFormed_refuses_divisor : (Instr.construct 4 2048).wellFormed = false := by decide
theorem test_wellFormed_refuses_divisor_low : (Instr.construct 4 (-2049)).wellFormed = false := by decide
theorem test_wellFormed_refuses_sample : (Instr.update 32768).wellFormed = false := by decide
theorem test_wellFormed_refuses_sample_low : (Instr.update (-32769)).wellFormed = false := by decide
theorem test_wellFormed_accepts :
    (Instr.construct 2047 (-2048)).wellFormed = true ∧ (Instr.update (-32768)).wellFormed = true := by decide

/-! ### The clock tables -/

/-- The entries nearest to a half in all tables, from the list in 40_clock_tables.md section 3. -/
theorem test_clock_near_halves :
    clockSin 201 28 = 97 ∧ clockSin 201 173 = -97 ∧ clockCos 177 52 = -35 ∧ clockSin 171 61 = 100 ∧
      clockCos 239 56 = 13 ∧ clockCos 133 33 = 1 := by decide +kernel
/-- The tables of divisor 6 (40_clock_tables.md section 4), with exact halves in the cosine. -/
theorem test_clock_divisor_6 :
    (List.range 6).map (clockCos 6) = [127, 64, -64, -127, -64, 64] ∧
      (List.range 6).map (clockSin 6) = [0, 110, 110, 0, -110, -110] := by decide +kernel

/-! ### Small states -/

/-- An array that lists its first entries and repeats one value after them. -/
def bank (w : Nat) (first : List Int) (after : Int) : Bank w :=
  Bank.tabulate fun i => BitVec.ofInt w (first.getD i after)

/-- A core configured with divisor 4, the other elements as given; entries beyond the configured length are rubbish. -/
def core4 (window : ConfigReg) (phase bufpos : Index) (accX accY : Acc) (xs ys : List Int) : State :=
  { State.reset with
    valid := true, window := window, divisor := 4
    cos := bank 8 [127, 0, -127, 0] (-77), sin := bank 8 [0, 127, 0, -127] (-77)
    xb := bank 16 xs 12345, yb := bank 16 ys 12345
    accX := accX, accY := accY, phase := phase, bufpos := bufpos }

/-- The state before step 5 of program P2 (42_update.md, worked example). -/
def beforeP2 : State := core4 3 3 0 15494 (-16256) [16129, 0, -635] [0, -16256, 0]

/-- A core with WINDOW = DIVISOR = 4 and nothing in it, as CONSTRUCT 4, 4 leaves it. -/
def fresh44 : State := core4 4 0 0 0 0 [0, 0, 0, 0] [0, 0, 0, 0]

/-- A core with WINDOW = 256, DIVISOR = 1, full of samples of -128: the accumulator bound of R20 (program P4). -/
def atBound : State :=
  { State.reset with
    valid := true, window := 256, divisor := 1, cos := bank 8 [127] (-77), sin := bank 8 [0] (-77)
    xb := bank 16 [] (-16256), yb := bank 16 [] 0, accX := -4161536, accY := 0, phase := 0, bufpos := 255 }

/-- The state with these events to come. -/
def withEvents (es : List HostEvent) (s : State) : State := { s with commands := es }

/-- The next state of an outcome. -/
def next? (o : Host.Outcome State Fault Refusal) : Option State :=
  match o with
  | .next s => some s
  | _ => none

/-- The fault of an outcome. -/
def fault? (o : Host.Outcome State Fault Refusal) : Option Fault :=
  match o with
  | .fault f => some f
  | _ => none

/-- The refusal of an outcome. -/
def refusal? (o : Host.Outcome State Fault Refusal) : Option Refusal :=
  match o with
  | .refused r => some r
  | _ => none

/-- The first entries of an array, as signed integers. -/
def cells {w : Nat} (n : Nat) (a : Bank w) : List Int :=
  (List.range n).map fun i => (Bank.entry a (BitVec.ofNat 8 i)).toInt

/-- The indices and accumulators: PHASE, BUFPOS, ACC_X, ACC_Y. -/
def sums (s : State) : List Int := [s.phase.toNat, s.bufpos.toNat, s.accX.toInt, s.accY.toInt]

/-- The status code and data of the last response of an outcome. -/
def answer (o : Host.Outcome State Fault Refusal) : Option (Nat × Nat) :=
  (next? o).bind fun s => s.responses.getLast?.map fun r => (r.status.code.toNat, r.data.toNat)

theorem beforeP2_inv : FilterInv beforeP2 := by decide +kernel
theorem fresh44_inv : FilterInv fresh44 := by decide +kernel
theorem atBound_inv : FilterInv atBound := by
  intro _
  have hx : ∀ j : Index, (Bank.entry atBound.xb j).toInt = -16256 := fun j => by simp [atBound, bank]
  have hy : ∀ j : Index, (Bank.entry atBound.yb j).toInt = 0 := fun j => by simp [atBound, bank]
  refine ⟨by decide, fun j _ => by rw [hx, hy]; decide, ⟨?_, ?_⟩, by decide, by decide +kernel⟩
  · rw [Bank.prefixSum, Finset.sum_congr rfl fun i _ => hx _, Finset.sum_const, Finset.card_range, nsmul_eq_mul]
    decide
  · rw [Bank.prefixSum, Finset.sum_congr rfl fun i _ => hy _, Finset.sum_const, Finset.card_range]
    rfl

/-! ### One step of each command -/

/-- CONSTRUCT 4, 4 from the reset state (41_construct.md, worked example). -/
theorem test_construct :
    (next? (exec (.construct 4 4) State.reset)).map (fun s => (s.valid, s.window.toNat, s.divisor.toNat))
      = some (true, 4, 4) ∧
    (next? (exec (.construct 4 4) State.reset)).map (fun s => [cells 4 s.cos, cells 4 s.sin, cells 4 s.xb, cells 4 s.yb,
      sums s]) = some [[127, 0, -127, 0], [0, 127, 0, -127], [0, 0, 0, 0], [0, 0, 0, 0], [0, 0, 0, 0]] := by
  decide +kernel

/-- CONSTRUCT 257, 4 on a configured core: ERR_CONFIG, and only VALID changes (R72). -/
theorem test_construct_fails :
    next? (exec (.construct 257 4) beforeP2) =
      some { beforeP2 with valid := false, responses := [⟨.errConfig, 0⟩] } :=
  congrArg next? (execConstruct_of_not_legal (by decide) _)

/-- UPDATE 64, step 5 of program P2 (42_update.md, worked example). -/
theorem test_update :
    (next? (exec (.update 64) beforeP2)).map (fun s => [sums s, cells 3 s.xb, cells 3 s.yb])
      = some [[0, 1, -635, -24384], [0, 0, -635], [-8128, -16256, 0]] := by decide +kernel

/-- UPDATE 128 and UPDATE -129 change nothing and answer ERR_DOMAIN (R76). -/
theorem test_update_domain :
    next? (exec (.update 128) beforeP2) = some { beforeP2 with responses := [⟨.errDomain, 0⟩] } ∧
      next? (exec (.update (-129)) beforeP2) = some { beforeP2 with responses := [⟨.errDomain, 0⟩] } :=
  ⟨congrArg next? (execUpdate_of_not_legal rfl (by decide)), congrArg next? (execUpdate_of_not_legal rfl (by decide))⟩

/-- MAGNITUDE of (-8128, 13970) is 16541 (43_magnitude.md, worked example), of (-635, -24384) 24384 (its table). -/
theorem test_magnitude :
    answer (exec .magnitude { fresh44 with accX := -8128, accY := 13970 }) = some (0, 16541) ∧
      answer (exec .magnitude { fresh44 with accX := -635, accY := -24384 }) = some (0, 24384) := by decide +kernel

/-- Rows of the table at the end of 43_magnitude.md: both sides of 17 × lo = 4 × hi, truncation, and the corner. -/
theorem test_magnitude_table :
    magnitude 0 0 = 0 ∧ magnitude (-1) 1 = 1 ∧ magnitude 17 4 = 17 ∧ magnitude 1000 235 = 1000 ∧
      magnitude 1000 236 = 1000 ∧ magnitude 28 17 = 33 ∧ magnitude 100 100 = 140 ∧
      magnitude 4161536 4161536 = 5852160 := by decide

/-- The priority of errors (95_test_vectors.md section 2.5), one word a step. -/
theorem test_priority :
    answer (step (State.reset.withFetchWord 32 0x0200012C)) = some (3, 0) ∧
      answer (step (fresh44.withFetchWord 32 0x0200012C)) = some (2, 0) ∧
      answer (step (State.reset.withFetchWord 32 0x02010005)) = some (4, 0) ∧
      answer (step (State.reset.withFetchWord 32 0x010003E7)) = some (1, 0) ∧
      answer (step (fresh44.withFetchWord 32 0x03000001)) = some (4, 0) ∧
      answer (step (State.reset.withFetchWord 32 0x03000000)) = some (3, 0) := by decide +kernel

/-- A pulse on `rst` clears VALID and answers nothing; the event after it stays (R105). -/
theorem test_reset :
    (next? (step (withEvents [.reset, .command 0x03000000] fresh44))).map (fun s => (s.valid, s.responses, s.commands))
      = some (false, [], [.command 0x03000000]) := by decide +kernel

/-- With nothing presented nothing changes. -/
theorem test_idle : next? (step beforeP2) = some beforeP2 := congrArg next? (step_of_idle rfl)

/-- The packed response {rsp_status, rsp_data} (R51). -/
theorem test_packed : (⟨.errDomain, 0x12345678⟩ : Response).packed = 0x212345678 := by decide

/-! ### Witnesses: for every statement with hypotheses, an instance that meets them -/

theorem witness_MatchedWordsDecodeToTheirCommand :
    (0x01FFFFFF : Word) &&& 0xFF000000 = 0x01000000 ∧ (0x0200FFFF : Word) &&& 0xFFFF0000 = 0x02000000 ∧
      (0x03000000 : Word) &&& 0xFFFFFFFF = 0x03000000 := by decide

theorem witness_UnmatchedWordsAreIllegal :
    ((0x03FFFFFF : Word) &&& 0xFF000000 ≠ 0x01000000 ∧ (0x03FFFFFF : Word) &&& 0xFFFF0000 ≠ 0x02000000 ∧
      (0x03FFFFFF : Word) &&& 0xFFFFFFFF ≠ 0x03000000) ∧
    (withEvents [.command 0x03FFFFFF] beforeP2).commands = [.command 0x03FFFFFF] ∧
    decode 0x03FFFFFF = .error .magnitudeZ24NotZero := by decide

theorem witness_DecodeAndEncodeAgree :
    (Instr.construct 2047 (-2048)).wellFormed = true ∧ decode 0x017FF800 = .ok (.construct 2047 (-2048)) ∧
      (Instr.update (-32768)).wellFormed = true ∧ decode 0x02008000 = .ok (.update (-32768)) := by decide

theorem witness_AssemblerEncodesOrRefuses :
    (Instr.update (-32768)).wellFormed = true ∧ (Instr.update 32768).wellFormed = false := by decide

theorem witness_StepRunsTheDecodedCommand :
    (withEvents [.command 0x0200FF80] beforeP2).commands = [.command 0x0200FF80] ∧
      decode 0x0200FF80 = .ok (.update (-128)) := by decide

theorem witness_PlacedWordRunsNext : (Instr.construct (-2048) 2047).wellFormed = true := by decide

theorem witness_IllegalWordIsAnsweredAndChangesNothing :
    (withEvents [.command 0xFFFFFFFF] beforeP2).commands = [.command 0xFFFFFFFF] ∧ ∀ i, decode 0xFFFFFFFF ≠ .ok i :=
  ⟨rfl, by rw [show decode 0xFFFFFFFF = .error (.noSuchOpcode 0xFF) by decide]; simp⟩

theorem witness_IdleStepChangesNothing : beforeP2.commands = [] := rfl

/-- Two different states that agree on what the reset statement asks. -/
theorem witness_ResetPulseUnconfiguresAndForgets :
    (withEvents [.reset] beforeP2).commands = [.reset] ∧
      (withEvents [.reset] fresh44).commands = (withEvents [.reset] beforeP2).commands ∧
      fresh44.responses = beforeP2.responses ∧ fresh44.draws = beforeP2.draws ∧ fresh44 ≠ beforeP2 :=
  ⟨rfl, rfl, rfl, rfl, fun h => absurd (congrArg State.phase h) (by decide)⟩

/-- A step that gives a next state, with an event and without. -/
theorem witness_StepTakesOneEventInOrder :
    (∃ t, step (withEvents [.command 0x00000000] beforeP2) = .next t) ∧ ∃ t, step beforeP2 = .next t :=
  ⟨⟨_, step_of_illegal (rest := []) (e := .noSuchOpcode 0x00) rfl rfl⟩, ⟨_, step_of_idle rfl⟩⟩

theorem witness_EveryWordGetsOneResponse :
    FilterInv (withEvents [.command 0x03000000] beforeP2) ∧
      (withEvents [.command 0x03000000] beforeP2).commands = [.command 0x03000000] ∧
      decode 0x03000000 = .ok .magnitude :=
  ⟨beforeP2_inv, rfl, by decide⟩

theorem witness_StatusFollowsThePriorityOfErrors :
    (FilterInv (withEvents [.command 0x0200007F] atBound) ∧ decode 0x0200007F = .ok (.update 127)) ∧
      FilterInv (withEvents [.command 0x0200007F] State.reset) :=
  ⟨⟨atBound_inv, by decide⟩, by decide +kernel⟩

/-- ERR_CONFIG on a configured core, and an error that changes nothing. -/
theorem witness_ErrorsLeaveTheFilterIntact :
    (∃ t, step (withEvents [.command 0x01101004] beforeP2) = .next t ∧
      t.responses = beforeP2.responses ++ [⟨.errConfig, 0⟩]) ∧
    ∃ t, step (withEvents [.command 0x04000000] beforeP2) = .next t ∧
      t.responses = beforeP2.responses ++ [⟨.errIllegal, 0⟩] :=
  ⟨⟨_, (step_of_command (rest := []) (i := .construct 257 4) rfl (by decide)).trans
      (execConstruct_of_not_legal (by decide) _), rfl⟩,
    ⟨_, step_of_illegal (rest := []) (e := .noSuchOpcode 0x04) rfl (by decide), rfl⟩⟩

/-- Both operands at the ends of the legal range, and one step outside on each side. -/
theorem witness_ConstructChecksOnlyItsOperands :
    constructLegal 1 256 = true ∧ constructLegal 256 1 = true ∧ constructLegal 0 256 = false ∧
      constructLegal 257 1 = false ∧ constructLegal 1 0 = false ∧ constructLegal 1 257 = false := by decide

theorem witness_ConstructBuildsTheFilter :
    (1 ≤ (256 : Int) ∧ (256 : Int) ≤ 256 ∧ 1 ≤ (1 : Int) ∧ (1 : Int) ≤ 256) ∧
      ∃ t, exec (.construct 256 1) beforeP2 = .next t :=
  ⟨by decide, _, execConstruct_of_legal (by decide) _⟩

theorem witness_FailedConstructClearsOnlyValid :
    ((0 : Int) < 1 ∨ (256 : Int) < 0 ∨ (4 : Int) < 1 ∨ (256 : Int) < 4) ∧
      ((4 : Int) < 1 ∨ (256 : Int) < 4 ∨ (257 : Int) < 1 ∨ (256 : Int) < 257) := by decide

/-- After the failed CONSTRUCT: a sample, an illegal word, and further failed CONSTRUCTs one step outside the range. -/
theorem witness_FailedRebuildDestroysTheFilter :
    exec (.construct 257 4) (withEvents [.command 0x02000064, .command 0x04000000, .command 0x01101100] beforeP2) =
      .next ((withEvents [.command 0x02000064, .command 0x04000000, .command 0x01101100]
        beforeP2).clearValid.respond ⟨.errConfig, 0⟩) ∧
    noLegalConstruct [0x02000064, 0x04000000, 0x01101100] ∧ decode 0x01101100 = .ok (.construct 257 256) :=
  ⟨execConstruct_of_not_legal (by decide) _, by
    intro word h w d e
    simp only [List.mem_cons, List.not_mem_nil, or_false] at h
    rcases h with rfl | rfl | rfl
    · rw [show decode 0x02000064 = .ok (.update 100) by decide] at e; cases e
    · rw [show decode 0x04000000 = .error (.noSuchOpcode 0x04) by decide] at e; cases e
    · rw [show decode 0x01101100 = .ok (.construct 257 256) by decide] at e; cases e; decide, by decide⟩

theorem witness_MagnitudeAfterConstructIsZero : ∃ t, exec (.construct 1 256) beforeP2 = .next t :=
  ⟨_, execConstruct_of_legal (by decide) _⟩

/-- Both ends of the sample's range, and a core whose BUFPOS is at its last entry. -/
theorem witness_UpdateAdmitsTheSample :
    (FilterInv beforeP2 ∧ beforeP2.valid = true ∧ (-128 : Int) ≤ -128 ∧ (-128 : Int) ≤ 127) ∧
      FilterInv atBound ∧ atBound.valid = true ∧ (-128 : Int) ≤ 127 ∧ (127 : Int) ≤ 127 :=
  ⟨⟨beforeP2_inv, rfl, by decide, by decide⟩, atBound_inv, rfl, by decide, by decide⟩

theorem witness_UpdateRejectsSampleOutOfDomain :
    beforeP2.valid = true ∧ ((-129 : Int) < -128 ∨ (127 : Int) < -129) ∧ ((128 : Int) < -128 ∨ (127 : Int) < 128) := by
  decide

theorem witness_UnconfiguredCoreRefusesUpdateAndMagnitude : State.reset.valid = false := rfl

theorem witness_UpdateStaysInsideItsStorage :
    FilterInv atBound ∧ atBound.valid = true ∧ (-128 : Int) ≤ -128 ∧ (-128 : Int) ≤ 127 :=
  ⟨atBound_inv, rfl, by decide, by decide⟩

/-- A state for each clause: WINDOW one too large, PHASE = DIVISOR, BUFPOS = WINDOW, an accumulator one past 32 bits, and
one that just fits and computes literally though it breaks R19 and R20. The clock entry at PHASE 0 is (127, 0). -/
theorem witness_UpdateStopsByNameAndElsewhereComputesLiterally :
    refusal? (exec (.update 1) { fresh44 with window := 257 }) = some .configOutOfRange ∧
      fault? (exec (.update 1) { fresh44 with phase := 4 }) = some .indexOutOfRange ∧
      fault? (exec (.update 1) { fresh44 with bufpos := 4 }) = some .indexOutOfRange ∧
      refusal? (exec (.update 1) { fresh44 with accX := 2147483521 }) = some .resultOutOfRange ∧
      (next? (exec (.update 1) { fresh44 with accX := 2147483520 })).map sums = some [1, 1, 2147483647, 0] := by
  decide +kernel

theorem witness_MagnitudeAnswersTheEstimate : atBound.valid = true := rfl

/-- The crossover 17 × lo = 4 × hi itself, one past it, and equal components. -/
theorem witness_MagnitudeEquivalentForms :
    17 * min (17 : Int).natAbs (-4 : Int).natAbs ≤ 4 * max (17 : Int).natAbs (-4 : Int).natAbs ∧
      4 * max (17 : Int).natAbs (5 : Int).natAbs < 17 * min (17 : Int).natAbs (5 : Int).natAbs ∧
      (100 : Int).natAbs = (-100 : Int).natAbs := by decide

theorem witness_MagnitudeStaysInside32Bits :
    FilterInv atBound ∧ atBound.valid = true ∧ max (47721858 : Int).natAbs (-47721858 : Int).natAbs ≤ 47721858 :=
  ⟨atBound_inv, rfl, by decide⟩

/-- The smallest divisor with its only index, and the largest with its last. -/
theorem witness_ClockTablesAreRoundedCosineAndSine :
    (1 ≤ 1 ∧ 1 ≤ 256 ∧ 0 < 1) ∧ (1 ≤ 256 ∧ 256 ≤ 256 ∧ 255 < 256) := by decide

theorem witness_TableEntriesStayInRange :
    FilterInv beforeP2 ∧ beforeP2.valid = true ∧ (3 : Index).toNat < beforeP2.divisor.toNat ∧
      ∃ t, exec (.construct 1 256) beforeP2 = .next t :=
  ⟨beforeP2_inv, rfl, by decide, _, execConstruct_of_legal (by decide) _⟩

/-- One index for each clause of the statement. -/
theorem witness_TieRuleMattersOnlyAtExactHalves :
    (6 * 1 = 6 ∧ 6 * 5 = 5 * 6) ∧ (3 * 1 = 3 ∧ 3 * 2 = 2 * 3) ∧ (12 * 1 = 12 ∧ 12 * 5 = 5 * 12) ∧
      (12 * 7 = 7 * 12 ∧ 12 * 11 = 11 * 12) ∧ ¬ (6 * 1 = 4 ∨ 6 * 1 = 5 * 4 ∨ 3 * 1 = 4 ∨ 3 * 1 = 2 * 4) ∧
      ¬ (12 * 1 = 4 ∨ 12 * 1 = 5 * 4 ∨ 12 * 1 = 7 * 4 ∨ 12 * 1 = 11 * 4) := by decide

theorem witness_ClockTableSymmetries :
    1 ≤ 256 ∧ 256 ≤ 256 ∧ 0 < 255 ∧ 255 < 256 ∧ 256 % 2 = 0 ∧ 256 % 4 = 0 := by decide

theorem witness_ReferenceVectorHasNorm127 : 1 ≤ 91 ∧ 91 ≤ 256 ∧ 33 < 91 := by decide

/-- An UPDATE on the port of a configured core: the invariants hold and the step gives a next state. -/
theorem update_steps : ∃ t, step (withEvents [.command 0x02000040] beforeP2) = .next t := by
  obtain ⟨p, q, e, -⟩ := execUpdate_of_inv (x := 64) beforeP2_inv rfl (by decide)
  exact ⟨_, (step_of_command (rest := []) (i := .update 64) rfl (by decide)).trans e⟩

theorem witness_EveryStepKeepsTheFilterInvariants :
    FilterInv (withEvents [.command 0x02000040] beforeP2) ∧
      ∃ t, step (withEvents [.command 0x02000040] beforeP2) = .next t :=
  ⟨beforeP2_inv, update_steps⟩

theorem witness_NoRunStopsUnderTheInvariants : FilterInv atBound ∧ atBound.valid = true := ⟨atBound_inv, rfl⟩

/-- A step that raises VALID, one that clears it by a failed CONSTRUCT, and one that clears it by reset. -/
theorem witness_ValidIsWrittenOnlyByResetAndConstruct :
    (∃ t, step (withEvents [.command 0x01100001] State.reset) = .next t ∧ State.reset.valid = false ∧ t.valid = true) ∧
    (∃ t, step (withEvents [.command 0x01101004] beforeP2) = .next t ∧ beforeP2.valid = true ∧ t.valid = false) ∧
    ∃ t, step (withEvents [.reset] beforeP2) = .next t ∧ beforeP2.valid = true ∧ t.valid = false :=
  ⟨⟨_, (step_of_command (rest := []) (i := .construct 256 1) rfl (by decide)).trans
      (execConstruct_of_legal (by decide) _), rfl, rfl⟩,
    ⟨_, (step_of_command (rest := []) (i := .construct 257 4) rfl (by decide)).trans
      (execConstruct_of_not_legal (by decide) _), rfl, rfl⟩,
    ⟨_, step_of_reset (rest := []) rfl, rfl, rfl⟩⟩

theorem witness_TablesAndConfigurationAreImmutable :
    ∃ t, step (withEvents [.command 0x02000040] beforeP2) = .next t := update_steps

/-- A word that advances the indices, at the last entry of each array, and words that do not. -/
theorem witness_PhaseAdvancesOncePerAcceptedSample :
    FilterInv (withEvents [.command 0x02000040] beforeP2) ∧ decode 0x02000040 = .ok (.update 64) ∧
      (∃ t, step (withEvents [.command 0x02000040] beforeP2) = .next t) ∧
      decode 0x03000000 = .ok .magnitude ∧ decode 0x02000080 = .ok (.update 128) ∧
      ∃ t, step (withEvents [.command 0x03000000] beforeP2) = .next t :=
  ⟨beforeP2_inv, by decide, update_steps, by decide, by decide, _,
    (step_of_command (rest := []) (i := .magnitude) rfl (by decide)).trans (execMagnitude_of_valid rfl)⟩

theorem witness_EqualModuliKeepTheIndicesEqual :
    (fresh44.valid = true ∧ fresh44.window = fresh44.divisor ∧ fresh44.phase = fresh44.bufpos) ∧
      ∃ t, step (withEvents [.command 0x02000040] fresh44) = .next t := by
  obtain ⟨p, q, e, -⟩ := execUpdate_of_inv (x := 64) fresh44_inv rfl (by decide)
  exact ⟨by decide, _, (step_of_command (rest := []) (i := .update 64) rfl (by decide)).trans e⟩

theorem witness_UnconfiguredCoreChangesOnlyByConstruct :
    State.reset.valid = false ∧ ∃ t, step (withEvents [.command 0x02000040] State.reset) = .next t :=
  ⟨rfl, _, (step_of_command (rest := []) (i := .update 64) rfl (by decide)).trans (execUpdate_of_not_valid rfl _)⟩

/-- Two configured cores that differ where the spec leaves the contents open, and two unconfigured ones. -/
theorem witness_UnspecifiedContentsAreNeverObserved :
    Indistinguishable fresh44 { fresh44 with xb := bank 16 [] 0, draws := 7 } ∧
    Indistinguishable State.reset { beforeP2 with valid := false } :=
  ⟨⟨rfl, fun _ => ⟨rfl, rfl, fun _ _ => rfl, fun _ _ => rfl,
      (by decide +kernel : ∀ j : Index, j.toNat < 4 → Bank.entry fresh44.xb j = Bank.entry (bank 16 [] 0) j),
      fun _ _ => rfl, rfl, rfl, rfl, rfl⟩, rfl, rfl⟩,
    ⟨rfl, fun h => Bool.noConfusion h, rfl, rfl⟩⟩

theorem witness_ConstructMakesRunsReproducible :
    (withEvents [.command (encode (.construct 256 1)), .command 0x02000040] beforeP2).commands =
      [.command (encode (.construct 256 1)), .command 0x02000040] ∧
    (withEvents [.command (encode (.construct 256 1)), .command 0x02000040] State.reset).commands =
      [.command (encode (.construct 256 1)), .command 0x02000040] ∧
    State.reset.responses = beforeP2.responses := ⟨rfl, rfl, rfl⟩

/-- With WINDOW = 2 and DIVISOR = 256, a stream longer than the window: three legal samples, and between them a rejected
one and an illegal word that do not count. -/
theorem witness_AccumulatorIsTheWindowedCorrelation :
    (1 ≤ 2 ∧ 2 ≤ 256 ∧ 1 ≤ 256 ∧ 256 ≤ 256) ∧
    noConstruct [0x02000064, 0x02000080, 0x0200FF80, 0x04000000, 0x0200007F] ∧
    acceptedSamples [0x02000064, 0x02000080, 0x0200FF80, 0x04000000, 0x0200007F] = [100, -128, 127] ∧
    (withEvents (.command (encode (.construct 2 256)) ::
      (List.map HostEvent.command [0x02000064, 0x02000080, 0x0200FF80, 0x04000000, 0x0200007F] ++ []))
        State.reset).commands = .command (encode (.construct 2 256)) ::
      (List.map HostEvent.command [0x02000064, 0x02000080, 0x0200FF80, 0x04000000, 0x0200007F] ++ []) :=
  ⟨by decide, by
    intro word h w d
    simp only [List.mem_cons, List.not_mem_nil, or_false] at h
    rcases h with rfl | rfl | rfl | rfl | rfl
    · rw [show decode 0x02000064 = .ok (.update 100) by decide]; simp
    · rw [show decode 0x02000080 = .ok (.update 128) by decide]; simp
    · rw [show decode 0x0200FF80 = .ok (.update (-128)) by decide]; simp
    · rw [show decode 0x04000000 = .error (.noSuchOpcode 0x04) by decide]; simp
    · rw [show decode 0x0200007F = .ok (.update 127) by decide]; simp, by decide, rfl⟩

theorem witness_ZeroSamplesFlushTheAccumulator :
    FilterInv (withEvents (presented (List.replicate 3 (.update 0) ++ [.magnitude])) beforeP2) ∧
      beforeP2.valid = true ∧ beforeP2.window.toNat = 3 := ⟨beforeP2_inv, rfl, rfl⟩

/-- WINDOW = 8 and DIVISOR = 4, the window just full, with a tone that reaches both ends of the sample's range. -/
theorem witness_SteadyToneHoldsTheAccumulator :
    1 ≤ 8 ∧ 8 ≤ 256 ∧ 1 ≤ 4 ∧ 4 ∣ 8 ∧ ∀ k, (-128 : Int) ≤ (if k = 0 then 127 else -128) ∧
      (if k = 0 then 127 else -128 : Int) ≤ 127 :=
  ⟨by decide, by decide, by decide, by decide, fun k : Nat => by split <;> decide⟩

end Sys2Proof.Tests
end

/-! Proofs of two statements about the state (10_state.md): WINDOW, DIVISOR and the tables outlive every step but a
reset and a CONSTRUCT (R25), and the closed form of the accumulator (R23). The second rests on two facts of its own: a
legal CONSTRUCT and every accepted sample keep R17 to R21, and both lanes follow the same recurrence, so each lane lemma
is proved once. -/

namespace Sys2Proof.Machine

variable {s t : State}

/-! ### Configuration and tables (R25) -/

/-- WINDOW, DIVISOR, COS and SIN are bit for bit the same. -/
abbrev SameTables (s t : State) : Prop :=
  t.window = s.window ∧ t.divisor = s.divisor ∧ t.cos = s.cos ∧ t.sin = s.sin

/-- Only a CONSTRUCT with legal operands can write the configuration or the tables. -/
theorem exec_sameTables {i : Instr} (e : exec i s = .next t) :
    (∃ w d, i = .construct w d ∧ constructLegal w d = true) ∨ SameTables s t := by
  rcases exec_cases e with ⟨w, d, hi, hl, -⟩ | ⟨_, _, -, -, rfl⟩ | ⟨_, _, _, -, -, -, rfl⟩ | ⟨_, -, -, -, rfl⟩ |
    ⟨-, -, rfl⟩ | ⟨-, -, rfl⟩
  case inl => exact .inl ⟨w, d, hi, hl⟩
  all_goals exact .inr ⟨rfl, rfl, rfl, rfl⟩

/-- Settles O39: of the events a step can take, only a reset and a CONSTRUCT with legal operands write any of the four. -/
theorem tablesAndConfigurationAreImmutable : Obligations.TablesAndConfigurationAreImmutable := by
  intro s t e
  rcases step_cases e with ⟨-, rfl⟩ | ⟨rest, hc, -⟩ | ⟨word, rest, err, -, -, rfl⟩ | ⟨word, rest, i, hc, hd, he⟩
  · exact .inr (.inr ⟨rfl, rfl, rfl, rfl⟩)
  · exact .inl ⟨rest, hc⟩
  · exact .inr (.inr ⟨rfl, rfl, rfl, rfl⟩)
  · rcases exec_sameTables he with ⟨w, d, rfl, hl⟩ | hsame
    · exact .inr (.inl ⟨word, rest, w, d, hc, hd, constructLegal_iff.1 hl⟩)
    · exact .inr (.inr hsame)

/-! ### The invariants of one lane (R18, R19) -/

/-- The sum of entries that R18 bounds is bounded as R20 says. -/
theorem Bank.natAbs_prefixSum_le {a : Bank 16} {n : Nat} (hn : n ≤ 256)
    (h : ∀ j : Index, j.toNat < n → -16256 ≤ (Bank.entry a j).toInt ∧ (Bank.entry a j).toInt ≤ 16256) :
    (Bank.prefixSum a n).natAbs ≤ n * 16256 := by
  have hsum : |Bank.prefixSum a n| ≤ ∑ _i ∈ Finset.range n, (16256 : Int) := by
    refine (Finset.abs_sum_le_sum_abs _ _).trans (Finset.sum_le_sum fun i hi => abs_le.2 (h _ ?_))
    have hi := Finset.mem_range.1 hi
    simpa [Nat.mod_eq_of_lt (lt_of_lt_of_le hi hn)] using hi
  rw [Finset.sum_const, Finset.card_range, nsmul_eq_mul, Int.abs_eq_natAbs] at hsum
  exact_mod_cast hsum

/-- R18 and R19 of one lane: its first `n` entries are bounded, and its accumulator is their sum. -/
structure LaneSound (n : Nat) (buf : Bank 16) (acc : Acc) : Prop where
  bounds : ∀ j : Index, j.toNat < n → -16256 ≤ (Bank.entry buf j).toInt ∧ (Bank.entry buf j).toInt ≤ 16256
  exact_sum : acc.toInt = Bank.prefixSum buf n

/-- R20 follows from R17 to R19, so the invariants are those of the indices, the tables and each lane. -/
theorem filterInv_of_lanes (hi : IndexRanges s) (hx : LaneSound s.window.toNat s.xb s.accX)
    (hy : LaneSound s.window.toNat s.yb s.accY) (ht : TablesGenerated s) : FilterInv s := by
  have ⟨_, hw, _⟩ := hi
  refine fun _ => ⟨hi, fun j hj => ⟨hx.bounds j hj, hy.bounds j hj⟩, ⟨hx.exact_sum, hy.exact_sum⟩, ⟨?_, ?_⟩, ht⟩
  · rw [hx.exact_sum]; exact Bank.natAbs_prefixSum_le hw hx.bounds
  · rw [hy.exact_sum]; exact Bank.natAbs_prefixSum_le hw hy.bounds

theorem FilterInv.lanes (h : FilterInv s) (hv : s.valid = true) :
    LaneSound s.window.toNat s.xb s.accX ∧ LaneSound s.window.toNat s.yb s.accY := by
  obtain ⟨-, hb, ⟨hx, hy⟩, -⟩ := h hv
  exact ⟨⟨fun j hj => (hb j hj).1, hx⟩, ⟨fun j hj => (hb j hj).2, hy⟩⟩

/-- What an accepted sample puts into one lane (R75 steps 3 to 5): the exact product, and the accumulator with the
evicted entry out and the product in. -/
structure LaneExact (x : Int) (clock : ClockEntry) (evicted : BufEntry) (acc : Acc) (r : BufEntry × Acc) : Prop where
  product : r.1.toInt = x * clock.toInt
  sum : r.2.toInt = acc.toInt - evicted.toInt + x * clock.toInt

/-- A sample keeps a lane sound: the eviction takes out of the sum exactly what the write takes out of the buffer. -/
theorem LaneSound.push {n : Nat} {buf : Bank 16} {acc : Acc} {pos : Index} {x : Int} {c : ClockEntry}
    {r : BufEntry × Acc} (h : LaneSound n buf acc) (hn : n ≤ 256) (hpos : pos.toNat < n) (hx : -128 ≤ x ∧ x ≤ 127)
    (hc : -127 ≤ c.toInt ∧ c.toInt ≤ 127) (hr : LaneExact x c (Bank.entry buf pos) acc r) :
    LaneSound n (memWrite buf pos r.1) r.2 where
  bounds j hj := by
    rw [entry_memWrite]
    split
    · rw [hr.product]; constructor <;> nlinarith
    · exact h.bounds j hj
  exact_sum := by rw [Bank.prefixSum_memWrite _ _ hpos hn, hr.sum, hr.product, h.exact_sum]

/-! ### CONSTRUCT and UPDATE keep R17 to R21 -/

/-- A legal window or divisor is stored in its 9 bits without loss (R14). -/
theorem configReg_toNat {n : Nat} (h : n ≤ 256) : (BitVec.ofNat 9 n).toNat = n := by
  simp only [BitVec.toNat_ofNat]
  omega

/-- The lane a CONSTRUCT leaves: zeros that sum to zero (R71). -/
theorem laneSound_zero {n : Nat} (hn : n ≤ 256) (beyond : Nat → BufEntry) :
    LaneSound n (Bank.fill n (fun _ => 0) beyond) 0 := by
  have zero : ∀ j : Index, j.toNat < n → Bank.entry (Bank.fill n (fun _ => (0 : BufEntry)) beyond) j = 0 := by
    intro j hj
    simp [hj]
  refine ⟨fun j hj => ?_, ?_⟩
  · rw [zero j hj]; decide
  · rw [Bank.prefixSum_eq_zero hn zero]; rfl

theorem filterInv_construct {w d : Nat} (hw : 1 ≤ w) (hw' : w ≤ 256) (hd : 1 ≤ d) (hd' : d ≤ 256) (s : State) :
    FilterInv (s.construct w d) := by
  apply filterInv_of_lanes
  · simp only [IndexRanges, State.construct_window, State.construct_divisor, State.construct_phase,
      State.construct_bufpos, configReg_toNat hw', configReg_toNat hd']
    exact ⟨hw, hw', hd, hd', hd, hw⟩
  · rw [State.construct_window, configReg_toNat hw']
    exact laneSound_zero hw' _
  · rw [State.construct_window, configReg_toNat hw']
    exact laneSound_zero hw' _
  · intro j hj
    rw [State.construct_divisor, configReg_toNat hd'] at hj ⊢
    rw [State.construct_cos, State.construct_sin, Bank.entry_fill, Bank.entry_fill, if_pos hj, if_pos hj]
    exact ⟨toInt_clockCos hj, toInt_clockSin hd _⟩

/-- An accepted sample on a configured core: UPDATE completes, each lane is exact, and R17 to R21 hold again (R78). -/
theorem execUpdate_keeps_filterInv {x : Int} (h : FilterInv s) (hv : s.valid = true) (hx : -128 ≤ x ∧ x ≤ 127) :
    ∃ p q : BufEntry × Acc, execUpdate x s = .next ((s.writeLanes p q).respond ⟨.ok, 0⟩) ∧
      LaneExact x (Bank.entry s.cos s.phase) (Bank.entry s.xb s.bufpos) s.accX p ∧
      LaneExact x (Bank.entry s.sin s.phase) (Bank.entry s.yb s.bufpos) s.accY q ∧ FilterInv (s.writeLanes p q) := by
  obtain ⟨p, q, he, hp, hq, hp', hq'⟩ := execUpdate_of_inv h hv hx
  have hpx : LaneExact x (Bank.entry s.cos s.phase) (Bank.entry s.xb s.bufpos) s.accX p := ⟨hp, hp'⟩
  have hqy : LaneExact x (Bank.entry s.sin s.phase) (Bank.entry s.yb s.bufpos) s.accY q := ⟨hq, hq'⟩
  obtain ⟨⟨w1, w2, d1, d2, hph, hbp⟩, -, -, -, ht⟩ := h hv
  obtain ⟨lx, ly⟩ := h.lanes hv
  obtain ⟨hc, hs⟩ := clock_bounds h hv hph
  refine ⟨p, q, he, hpx, hqy, filterInv_of_lanes ?_ (lx.push w2 hbp hx hc hpx) (ly.push w2 hbp hx hs hqy) ht⟩
  simp only [IndexRanges, State.writeLanes_window, State.writeLanes_divisor, State.writeLanes_phase,
    State.writeLanes_bufpos, nextIndex_toNat _ w1 w2, nextIndex_toNat _ d1 d2]
  exact ⟨w1, w2, d1, d2, Nat.mod_lt _ d1, Nat.mod_lt _ w1⟩

/-! ### The windowed sum, one sample at a time -/

/-- The product that the next sample pushes out of a window of `w`: that of the sample `w` back, if there is one. -/
def evictedTerm (table : Nat → Int) (w d : Nat) (samples : List Int) : Int :=
  if w ≤ samples.length then samples.getD (samples.length - w) 0 * table ((samples.length - w) % d) else 0

theorem windowedSum_append (table : Nat → Int) {w : Nat} (d : Nat) (hw : 1 ≤ w) (samples : List Int) (x : Int) :
    windowedSum table w d (samples ++ [x]) =
      windowedSum table w d samples - evictedTerm table w d samples + x * table (samples.length % d) := by
  have old : ∀ k ∈ Finset.Ico (samples.length + 1 - w) samples.length,
      (samples ++ [x]).getD k 0 * table (k % d) = samples.getD k 0 * table (k % d) := fun k hk => by
    rw [List.getD_append _ _ _ _ (Finset.mem_Ico.1 hk).2]
  have last : (samples ++ [x]).getD samples.length 0 = x := by simp
  simp only [windowedSum, evictedTerm, List.length_append, List.length_singleton]
  rw [Finset.sum_Ico_succ_top (by omega), last, Finset.sum_congr rfl old]
  split
  · next hfull =>
    rw [Finset.sum_eq_sum_Ico_succ_bot (show samples.length - w < samples.length by omega),
      show samples.length - w + 1 = samples.length + 1 - w by omega]
    ring
  · next hfilling =>
    rw [show samples.length + 1 - w = samples.length - w by omega]
    ring

/-- One lane after these samples (R23): the windowed sum, the products of the window in the buffer, and zeros at the
entries not reached yet. -/
structure LaneCorrelates (table : Nat → Int) (w d : Nat) (samples : List Int) (buf : Bank 16) (acc : Acc) : Prop where
  sum : acc.toInt = windowedSum table w d samples
  products : ∀ k, samples.length - w ≤ k → k < samples.length →
    (Bank.entry buf (BitVec.ofNat 8 (k % w))).toInt = samples.getD k 0 * table (k % d)
  zeros : ∀ j : Index, samples.length ≤ j.toNat → j.toNat < w → Bank.entry buf j = 0

theorem laneCorrelates_nil (table : Nat → Int) (w d : Nat) (beyond : Nat → BufEntry) :
    LaneCorrelates table w d [] (Bank.fill w (fun _ => 0) beyond) 0 where
  sum := by simp [windowedSum]
  products k _ hk := absurd hk (Nat.not_lt_zero k)
  zeros j _ hj := by simp [hj]

/-- The buffer entry at BUFPOS is the one that leaves the window. -/
theorem LaneCorrelates.entry_bufpos {table : Nat → Int} {w d : Nat} {samples : List Int} {buf : Bank 16} {acc : Acc}
    {pos : Index} (h : LaneCorrelates table w d samples buf acc) (hw : 1 ≤ w) (hpos : pos.toNat = samples.length % w) :
    (Bank.entry buf pos).toInt = evictedTerm table w d samples := by
  unfold evictedTerm
  split
  · next hfull =>
    rw [← h.products _ le_rfl (by omega), ← Nat.mod_eq_sub_mod hfull, ← hpos, BitVec.ofNat_toNat, BitVec.setWidth_eq]
  · next hfilling =>
    rw [Nat.mod_eq_of_lt (by omega)] at hpos
    rw [h.zeros pos hpos.ge (by omega)]
    rfl

/-- Two samples of one window lie in different buffer entries. -/
theorem bufpos_ne_of_mem_window {n w k : Nat} (lo : n + 1 - w ≤ k) (hi : k < n) : n % w ≠ k % w := by
  intro h
  have hdvd : w ∣ n - k := (Nat.modEq_iff_dvd' hi.le).1 h.symm
  have := Nat.le_of_dvd (by omega) hdvd
  omega

/-- A sample takes the lane from the closed form for `samples` to the closed form with it appended. -/
theorem LaneCorrelates.push {table : Nat → Int} {w d : Nat} {samples : List Int} {buf : Bank 16} {acc : Acc}
    {pos : Index} {x : Int} {c : ClockEntry} {r : BufEntry × Acc} (h : LaneCorrelates table w d samples buf acc)
    (hw : 1 ≤ w) (hw' : w ≤ 256) (hpos : pos.toNat = samples.length % w)
    (hc : c.toInt = table (samples.length % d)) (hr : LaneExact x c (Bank.entry buf pos) acc r) :
    LaneCorrelates table w d (samples ++ [x]) (memWrite buf pos r.1) r.2 where
  sum := by rw [hr.sum, h.sum, h.entry_bufpos hw hpos, hc, windowedSum_append _ _ hw]
  products k lo hi := by
    rw [List.length_append, List.length_singleton] at lo hi
    have written : pos = BitVec.ofNat 8 (k % w) ↔ samples.length % w = k % w := by
      have hk : k % w < 2 ^ 8 := (Nat.mod_lt k hw).trans_le hw'
      rw [← BitVec.toNat_inj, hpos, BitVec.toNat_ofNat, Nat.mod_eq_of_lt hk]
    rw [entry_memWrite]
    rcases Nat.lt_succ_iff_lt_or_eq.1 hi with hold | rfl
    · rw [if_neg (mt written.1 (bufpos_ne_of_mem_window lo hold)), h.products k (by omega) hold,
        List.getD_append _ _ _ _ hold]
    · rw [if_pos (written.2 rfl), hr.product, hc]
      simp
  zeros j lo hi := by
    rw [List.length_append, List.length_singleton] at lo
    have hne : pos ≠ j := by
      rintro rfl
      rw [Nat.mod_eq_of_lt (by omega)] at hpos
      omega
    rw [entry_memWrite, if_neg hne]
    exact h.zeros j (by omega) hi

/-! ### The whole core over a stream without CONSTRUCT -/

/-- The core after a CONSTRUCT of `w` and `d` and these accepted samples: R17 to R21 and the closed form of R23. -/
structure Correlates (w d : Nat) (samples : List Int) (s : State) : Prop where
  inv : FilterInv s
  valid : s.valid = true
  window : s.window.toNat = w
  divisor : s.divisor.toNat = d
  phase : s.phase.toNat = samples.length % d
  bufpos : s.bufpos.toNat = samples.length % w
  laneX : LaneCorrelates (clockCos d) w d samples s.xb s.accX
  laneY : LaneCorrelates (clockSin d) w d samples s.yb s.accY

variable {w d : Nat} {samples : List Int}

/-- A response changes no element, so the closed form stays. -/
theorem Correlates.respond (h : Correlates w d samples s) (r : Response) : Correlates w d samples (s.respond r) :=
  ⟨h.inv, h.valid, h.window, h.divisor, h.phase, h.bufpos, h.laneX, h.laneY⟩

/-- What the host will still present is no part of the closed form. -/
theorem Correlates.setCommands (h : Correlates w d samples s) (rest : List HostEvent) :
    Correlates w d samples { s with commands := rest } :=
  ⟨h.inv, h.valid, h.window, h.divisor, h.phase, h.bufpos, h.laneX, h.laneY⟩

theorem correlates_construct (hw : 1 ≤ w) (hw' : w ≤ 256) (hd : 1 ≤ d) (hd' : d ≤ 256) (s : State) :
    Correlates w d [] (s.construct w d) where
  inv := filterInv_construct hw hw' hd hd' s
  valid := rfl
  window := configReg_toNat hw'
  divisor := configReg_toNat hd'
  phase := (Nat.zero_mod d).symm
  bufpos := (Nat.zero_mod w).symm
  laneX := laneCorrelates_nil _ _ _ _
  laneY := laneCorrelates_nil _ _ _ _

/-- A legal sample is appended to the closed form. -/
theorem Correlates.execUpdate_legal {x : Int} (h : Correlates w d samples s) (hx : -128 ≤ x ∧ x ≤ 127) :
    ∃ t, execUpdate x s = .next t ∧ Correlates w d (samples ++ [x]) t ∧ t.commands = s.commands := by
  obtain ⟨p, q, he, hp, hq, hinv⟩ := execUpdate_keeps_filterInv h.inv h.valid hx
  obtain ⟨⟨w1, w2, d1, d2, hph, -⟩, -, -, -, ht⟩ := h.inv h.valid
  obtain ⟨hcos, hsin⟩ := ht _ hph
  rw [h.divisor, h.phase] at hcos hsin
  have next : Correlates w d (samples ++ [x]) (s.writeLanes p q) :=
    { inv := hinv
      valid := h.valid
      window := h.window
      divisor := h.divisor
      phase := by
        rw [State.writeLanes_phase, nextIndex_toNat _ d1 d2, h.divisor, h.phase]
        simp
      bufpos := by
        rw [State.writeLanes_bufpos, nextIndex_toNat _ w1 w2, h.window, h.bufpos]
        simp
      laneX := h.laneX.push (h.window ▸ w1) (h.window ▸ w2) h.bufpos hcos hp
      laneY := h.laneY.push (h.window ▸ w1) (h.window ▸ w2) h.bufpos hsin hq }
  exact ⟨_, he, next.respond _, rfl⟩

theorem acceptedSamples_cons (word : Word) (words : List Word) :
    acceptedSamples (word :: words) = acceptedSamples [word] ++ acceptedSamples words := by
  simp only [acceptedSamples]
  split
  · split <;> rfl
  · rfl

theorem acceptedSamples_of_update {word : Word} {x : Int} (hd : decode word = .ok (.update x)) :
    acceptedSamples [word] = if sampleLegal x then [x] else [] := by
  simp only [acceptedSamples, hd]

theorem acceptedSamples_of_no_update {word : Word} (hd : ∀ x, decode word ≠ .ok (.update x)) :
    acceptedSamples [word] = [] := by
  unfold acceptedSamples
  split
  · next x hx => exact absurd hx (hd x)
  · rfl

/-- Every word but a CONSTRUCT is answered, and extends the closed form by the sample it feeds, if any. -/
theorem Correlates.step {word : Word} {rest : List HostEvent} (h : Correlates w d samples s)
    (hc : s.commands = .command word :: rest) (hno : ∀ a b, decode word ≠ .ok (.construct a b)) :
    ∃ t, Machine.step s = .next t ∧ Correlates w d (samples ++ acceptedSamples [word]) t ∧ t.commands = rest := by
  have h' := h.setCommands rest
  cases hdec : decode word with
  | error e =>
    rw [acceptedSamples_of_no_update (by simp [hdec]), List.append_nil]
    exact ⟨_, step_of_illegal hc hdec, h'.respond _, rfl⟩
  | ok i =>
    rw [step_of_command hc hdec]
    cases i with
    | construct a b => exact absurd hdec (hno a b)
    | magnitude =>
      rw [acceptedSamples_of_no_update (by simp [hdec]), List.append_nil]
      exact ⟨_, execMagnitude_of_valid h'.valid, h'.respond _, rfl⟩
    | update x =>
      rw [acceptedSamples_of_update hdec]
      cases hx : sampleLegal x with
      | true => exact h'.execUpdate_legal (sampleLegal_iff.1 hx)
      | false =>
        rw [if_neg Bool.false_ne_true, List.append_nil]
        exact ⟨_, execUpdate_of_not_legal h'.valid hx, h'.respond _, rfl⟩

/-- A stream without CONSTRUCT runs to its end and extends the closed form by its accepted samples. -/
theorem Correlates.run {words : List Word} {rest : List HostEvent} (h : Correlates w d samples s)
    (hc : s.commands = words.map HostEvent.command ++ rest) (hno : noConstruct words) :
    ∃ t, Host.Core.run core words.length s = .next t ∧ Correlates w d (samples ++ acceptedSamples words) t ∧
      t.commands = rest := by
  induction words generalizing s samples with
  | nil => exact ⟨s, rfl, by simpa [acceptedSamples] using h, hc⟩
  | cons word words ih =>
    obtain ⟨s', hstep, hs', hc'⟩ := h.step hc (hno word List.mem_cons_self)
    obtain ⟨t, hrun, ht, hct⟩ := ih hs' hc' fun v hv => hno v (List.mem_cons_of_mem word hv)
    rw [List.append_assoc, ← acceptedSamples_cons] at ht
    exact ⟨t, (run_succ_of_next _ hstep).trans hrun, ht, hct⟩

/-! ### The word of a CONSTRUCT -/

/-- The word of a CONSTRUCT whose operands fit their fields decodes to it (R53). -/
theorem decode_encode_construct {a b : Int} (ha : -2048 ≤ a ∧ a ≤ 2047) (hb : -2048 ≤ b ∧ b ≤ 2047) :
    decode (encode (.construct a b)) = .ok (.construct a b) := by
  have hword := encode_construct_toNat a b
  have hop : (encode (.construct a b)).toNat / 2 ^ 24 = 0x01 := by omega
  have hwin : (encode (.construct a b)).toNat / 2 ^ 12 % 2 ^ 12 = (a % 4096).toNat := by omega
  have hdiv : (encode (.construct a b)).toNat % 2 ^ 12 = (b % 4096).toNat := by omega
  rw [decode_eq, if_pos hop, hwin, hdiv, signedField_emod_12 ha.1 ha.2, signedField_emod_12 hb.1 hb.2]

/-- Presenting a legal CONSTRUCT starts the closed form, with no sample yet. -/
theorem step_construct_correlates {rest : List HostEvent} (hw : 1 ≤ w) (hw' : w ≤ 256) (hd : 1 ≤ d) (hd' : d ≤ 256)
    (hc : s.commands = .command (encode (.construct w d)) :: rest) :
    ∃ t, step s = .next t ∧ Correlates w d [] t ∧ t.commands = rest := by
  have hdec : decode (encode (.construct w d)) = .ok (.construct w d) :=
    decode_encode_construct (by omega) (by omega)
  have hlegal : constructLegal w d = true := constructLegal_iff.2 (by omega)
  exact ⟨_, (step_of_command hc hdec).trans (execConstruct_of_legal hlegal _),
    (correlates_construct hw hw' hd hd' _).respond _, rfl⟩

/-- Settles O45: CONSTRUCT starts the closed form of R23, and each further word of the stream extends it. -/
theorem accumulatorIsTheWindowedCorrelation : Obligations.AccumulatorIsTheWindowedCorrelation := by
  intro s w d words rest hw hw' hd hd' hno hc
  obtain ⟨s', hstep, hs', hc'⟩ := step_construct_correlates hw hw' hd hd' hc
  obtain ⟨t, hrun, ht, hct⟩ := hs'.run hc' hno
  rw [List.nil_append] at ht
  exact ⟨t, (run_succ_of_next _ hstep).trans hrun, ht.valid, hct, ht.phase, ht.bufpos, ht.laneX.sum, ht.laneY.sum,
    fun k lo hi => ⟨ht.laneX.products k lo hi, ht.laneY.products k lo hi⟩,
    fun j lo hi => ⟨ht.laneX.zeros j lo hi, ht.laneY.zeros j lo hi⟩⟩

end Sys2Proof.Machine

/-! Proofs of the statements about the encoding (30_encoding.md): what each word decodes to, that decoding and encoding
undo each other (R47 to R50, R52, R53), and the one response every word gets (R51). -/

namespace Sys2Proof.Machine

/-! ### Sign-extended fields -/

/-- A sign-extended field lies in the signed range of its width. -/
theorem signedField_range {n v : Nat} (hv : v < 2 ^ (n + 1)) :
    -2 ^ n ≤ signedField (n + 1) v ∧ signedField (n + 1) v < 2 ^ n := by
  have half : (2 : Int) ^ (n + 1) = 2 * 2 ^ n := pow_succ' 2 n
  have hsign := signedField_cases (n + 1) v
  rw [Nat.add_sub_cancel] at hsign
  zify at hv hsign
  omega

theorem signedField_range_12 {v : Nat} (hv : v < 2 ^ 12) : -2048 ≤ signedField 12 v ∧ signedField 12 v ≤ 2047 :=
  (signedField_range hv).imp_right Int.le_of_lt_add_one

theorem signedField_range_16 {v : Nat} (hv : v < 2 ^ 16) : -32768 ≤ signedField 16 v ∧ signedField 16 v ≤ 32767 :=
  (signedField_range hv).imp_right Int.le_of_lt_add_one

/-- Sign extension loses nothing: the field is its operand modulo its width. -/
theorem signedField_emod {n v : Nat} (hv : v < 2 ^ n) : signedField n v % 2 ^ n = v := by
  have hv : (v : Int) < 2 ^ n := by exact_mod_cast hv
  rcases signedField_cases n v with ⟨-, e⟩ | ⟨-, e⟩
  · rw [e, Int.emod_eq_of_lt (Int.natCast_nonneg v) hv]
  · rw [e, Int.sub_emod_right, Int.emod_eq_of_lt (Int.natCast_nonneg v) hv]

/-! ### The three patterns as conditions on the fields (R47 to R49) -/

/-- A mask of the bits from `k` on clears the bits below `k`. -/
theorem and_allOnes_shiftLeft {n : Nat} (x : BitVec n) (k : Nat) : x &&& BitVec.allOnes n <<< k = (x >>> k) <<< k := by
  ext i hi
  by_cases hk : i < k
  · simp [hk]
  · simp [hk, Nat.add_sub_cancel' (Nat.le_of_not_lt hk), BitVec.getLsbD_eq_getElem hi]

theorem and_allOnes_shiftLeft_toNat {n : Nat} (x : BitVec n) (k : Nat) :
    (x &&& BitVec.allOnes n <<< k).toNat = x.toNat / 2 ^ k * 2 ^ k := by
  have hlt : x.toNat / 2 ^ k * 2 ^ k < 2 ^ n := (Nat.div_mul_le_self _ _).trans_lt x.isLt
  rw [and_allOnes_shiftLeft, BitVec.toNat_shiftLeft, BitVec.toNat_ushiftRight, Nat.shiftRight_eq_div_pow,
    Nat.shiftLeft_eq, Nat.mod_eq_of_lt hlt]

theorem matches_construct_iff (word : Word) : word &&& 0xFF000000 = 0x01000000 ↔ word.toNat / 2 ^ 24 = 0x01 := by
  have h := and_allOnes_shiftLeft_toNat word 24
  rw [show BitVec.allOnes 32 <<< 24 = 0xFF000000 from rfl] at h
  rw [← BitVec.toNat_inj, h, show (0x01000000 : Word).toNat = 0x01000000 from rfl]
  omega

theorem matches_update_iff (word : Word) : word &&& 0xFFFF0000 = 0x02000000 ↔
    word.toNat / 2 ^ 24 = 0x02 ∧ word.toNat / 2 ^ 16 % 2 ^ 8 = 0 := by
  have h := and_allOnes_shiftLeft_toNat word 16
  rw [show BitVec.allOnes 32 <<< 16 = 0xFFFF0000 from rfl] at h
  rw [← BitVec.toNat_inj, h, show (0x02000000 : Word).toNat = 0x02000000 from rfl]
  omega

theorem matches_magnitude_iff (word : Word) : word &&& 0xFFFFFFFF = 0x03000000 ↔
    word.toNat / 2 ^ 24 = 0x03 ∧ word.toNat % 2 ^ 24 = 0 := by
  have h := and_allOnes_shiftLeft_toNat word 0
  rw [show BitVec.allOnes 32 <<< 0 = 0xFFFFFFFF from rfl] at h
  rw [← BitVec.toNat_inj, h, show (0x03000000 : Word).toNat = 0x03000000 from rfl]
  omega

/-! ### What a word decodes to (R52, R53) -/

variable {word : Word}

theorem decode_of_construct (hop : word.toNat / 2 ^ 24 = 0x01) : decode word =
    .ok (.construct (signedField 12 (word.toNat / 2 ^ 12 % 2 ^ 12)) (signedField 12 (word.toNat % 2 ^ 12))) := by
  rw [decode_eq, if_pos hop]

theorem decode_of_update (hop : word.toNat / 2 ^ 24 = 0x02) (hz : word.toNat / 2 ^ 16 % 2 ^ 8 = 0) :
    decode word = .ok (.update (signedField 16 (word.toNat % 2 ^ 16))) := by
  rw [decode_eq, if_neg (by omega), if_pos hop, if_pos hz]

theorem decode_of_magnitude (hop : word.toNat / 2 ^ 24 = 0x03) (hz : word.toNat % 2 ^ 24 = 0) :
    decode word = .ok .magnitude := by
  rw [decode_eq, if_neg (by omega), if_neg (by omega), if_pos hop, if_pos hz]

/-- The fields of the words that R52 lists as illegal. -/
def IllegalFields (word : Word) : Prop :=
  word.toNat / 2 ^ 24 = 0x00 ∨ 0x04 ≤ word.toNat / 2 ^ 24 ∨
    (word.toNat / 2 ^ 24 = 0x02 ∧ word.toNat / 2 ^ 16 % 2 ^ 8 ≠ 0) ∨
    (word.toNat / 2 ^ 24 = 0x03 ∧ word.toNat % 2 ^ 24 ≠ 0)

theorem decode_of_illegalFields (h : IllegalFields word) : ∃ e, decode word = .error e := by
  rw [decode_eq]
  rcases h with hop | hop | ⟨hop, hz⟩ | ⟨hop, hz⟩
  · exact ⟨_, by rw [if_neg (by omega), if_neg (by omega), if_neg (by omega)]⟩
  · exact ⟨_, by rw [if_neg (by omega), if_neg (by omega), if_neg (by omega)]⟩
  · exact ⟨_, by rw [if_neg (by omega), if_pos hop, if_neg hz]⟩
  · exact ⟨_, by rw [if_neg (by omega), if_neg (by omega), if_pos hop, if_neg hz]⟩

/-- The fields of every word are those of one of the three commands, or R52 lists them. -/
theorem fields_cases (word : Word) :
    word.toNat / 2 ^ 24 = 0x01 ∨ (word.toNat / 2 ^ 24 = 0x02 ∧ word.toNat / 2 ^ 16 % 2 ^ 8 = 0) ∨
      (word.toNat / 2 ^ 24 = 0x03 ∧ word.toNat % 2 ^ 24 = 0) ∨ IllegalFields word := by
  unfold IllegalFields
  omega

theorem exists_decode_error_iff (word : Word) : (∃ e, decode word = .error e) ↔ IllegalFields word := by
  refine ⟨fun ⟨e, he⟩ => ?_, decode_of_illegalFields⟩
  rcases fields_cases word with hop | ⟨hop, hz⟩ | ⟨hop, hz⟩ | h
  · cases (decode_of_construct hop).symm.trans he
  · cases (decode_of_update hop hz).symm.trans he
  · cases (decode_of_magnitude hop hz).symm.trans he
  · exact h

theorem no_match_iff_illegalFields (word : Word) :
    (word &&& 0xFF000000 ≠ 0x01000000 ∧ word &&& 0xFFFF0000 ≠ 0x02000000 ∧ word &&& 0xFFFFFFFF ≠ 0x03000000) ↔
      IllegalFields word := by
  rw [Ne, Ne, Ne, matches_construct_iff, matches_update_iff, matches_magnitude_iff]
  unfold IllegalFields
  omega

/-! ### Decode and encode undo each other (R53) -/

/-- Decoding the word of a command whose operands fit their fields gives the command back. -/
theorem decode_encode {i : Instr} (h : i.wellFormed = true) : decode (encode i) = .ok i := by
  cases i with
  | construct w d =>
    obtain ⟨hw, hd⟩ := (wellFormed_construct w d).1 h
    exact decode_encode_construct hw hd
  | update x =>
    obtain ⟨lo, hi⟩ := (wellFormed_update x).1 h
    have hword := encode_update_toNat x
    have hsample : (encode (.update x)).toNat % 2 ^ 16 = (x % 65536).toNat := by omega
    rw [decode_of_update (by omega) (by omega), hsample, signedField_emod_16 lo hi]
  | magnitude => exact decode_of_magnitude (by simp [encode_magnitude_toNat]) (by simp [encode_magnitude_toNat])

/-- A word that decodes to a command is the word of that command, whose operands fit their fields. -/
theorem encode_of_decode {i : Instr} (h : decode word = .ok i) : i.wellFormed = true ∧ encode i = word := by
  rw [← BitVec.toNat_inj]
  rcases fields_cases word with hop | ⟨hop, hz⟩ | ⟨hop, hz⟩ | hill
  · cases (decode_of_construct hop).symm.trans h
    have hwin : word.toNat / 2 ^ 12 % 2 ^ 12 < 2 ^ 12 := Nat.mod_lt _ (by decide)
    have hdiv : word.toNat % 2 ^ 12 < 2 ^ 12 := Nat.mod_lt _ (by decide)
    have hword := encode_construct_toNat (signedField 12 (word.toNat / 2 ^ 12 % 2 ^ 12))
      (signedField 12 (word.toNat % 2 ^ 12))
    have ewin := signedField_emod hwin
    have ediv := signedField_emod hdiv
    exact ⟨(wellFormed_construct _ _).2 ⟨signedField_range_12 hwin, signedField_range_12 hdiv⟩, by omega⟩
  · cases (decode_of_update hop hz).symm.trans h
    have hsample : word.toNat % 2 ^ 16 < 2 ^ 16 := Nat.mod_lt _ (by decide)
    have hword := encode_update_toNat (signedField 16 (word.toNat % 2 ^ 16))
    have esample := signedField_emod hsample
    exact ⟨(wellFormed_update _).2 (signedField_range_16 hsample), by omega⟩
  · cases (decode_of_magnitude hop hz).symm.trans h
    exact ⟨rfl, by rw [encode_magnitude_toNat]; omega⟩
  · obtain ⟨e, he⟩ := decode_of_illegalFields hill
    cases he.symm.trans h

/-- Decoding, its errors forgotten, is R53's chain of three tests. -/
theorem decode_toOption (word : Word) : (decode word).toOption =
    if word.toNat / 2 ^ 24 = 0x01 then
      some (.construct (signedField 12 (word.toNat / 2 ^ 12 % 2 ^ 12)) (signedField 12 (word.toNat % 2 ^ 12)))
    else if word.toNat / 2 ^ 24 = 0x02 ∧ word.toNat / 2 ^ 16 % 2 ^ 8 = 0 then
      some (.update (signedField 16 (word.toNat % 2 ^ 16)))
    else if word.toNat / 2 ^ 24 = 0x03 ∧ word.toNat % 2 ^ 24 = 0 then some .magnitude
    else none := by
  rcases fields_cases word with hop | ⟨hop, hz⟩ | ⟨hop, hz⟩ | hill
  · rw [decode_of_construct hop, if_pos hop]
    rfl
  · rw [decode_of_update hop hz, if_neg (by omega), if_pos ⟨hop, hz⟩]
    rfl
  · rw [decode_of_magnitude hop hz, if_neg (by omega), if_neg (by omega), if_pos ⟨hop, hz⟩]
    rfl
  · obtain ⟨e, he⟩ := decode_of_illegalFields hill
    unfold IllegalFields at hill
    rw [he, if_neg (by omega), if_neg (by omega), if_neg (by omega)]
    rfl

/-- Settles O3: both round trips, the arithmetic of the encoder and the chain of tests of the decoder. -/
theorem decodeAndEncodeAgree : Obligations.DecodeAndEncodeAgree :=
  ⟨fun _ => decode_encode, fun _ _ => encode_of_decode, fun w d _ _ _ _ => encode_construct_toNat w d,
    fun s _ _ => encode_update_toNat s, encode_magnitude_toNat, decode_toOption⟩

/-- Settles O1: each pattern is a condition on the fields, under which the decoder's test for that command succeeds. -/
theorem matchedWordsDecodeToTheirCommand : Obligations.MatchedWordsDecodeToTheirCommand := by
  refine ⟨fun word => ⟨fun h => ?_, fun h => ?_, fun h => ?_⟩, fun _ => signedField_range_12,
    fun _ => signedField_range_16, by decide, by decide⟩
  · exact decode_of_construct ((matches_construct_iff word).1 h)
  · obtain ⟨hop, hz⟩ := (matches_update_iff word).1 h
    exact decode_of_update hop hz
  · obtain ⟨hop, hz⟩ := (matches_magnitude_iff word).1 h
    exact decode_of_magnitude hop hz

/-- Settles O2: no pattern matches, decoding fails and R52 lists the fields are one condition. -/
theorem unmatchedWordsAreIllegal : Obligations.UnmatchedWordsAreIllegal := fun word =>
  ⟨(no_match_iff_illegalFields word).trans (exists_decode_error_iff word).symm, exists_decode_error_iff word,
    fun _ _ _ => step_of_illegal⟩

/-! ### The response to a word (R51) -/

theorem Status.code_le_four (st : Status) : st.code.toNat ≤ 4 := by
  cases st <;> decide

theorem Response.packed_toNat (r : Response) : r.packed.toNat = r.status.code.toNat * 2 ^ 32 + r.data.toNat :=
  append_toNat r.status.code r.data

/-- The magnitude of any two accumulators fits the 32 bits of `rsp_data`. -/
theorem magnitude_lt_two_pow_32 (a b : Acc) : magnitude a.toInt b.toInt < 2 ^ 32 := by
  have bound (c : Acc) : c.toInt.natAbs ≤ 2 ^ 31 := by
    have lo := BitVec.le_toInt c
    have hi := BitVec.toInt_lt (x := c)
    omega
  have ha := bound a
  have hb := bound b
  have h1 : magOpt1 a.toInt b.toInt < 2 ^ 37 := by
    unfold magOpt1 magHi magLo
    omega
  have h2 : magOpt2 a.toInt b.toInt < 2 ^ 37 := by
    unfold magOpt2 magHi
    omega
  rw [magnitude, Nat.shiftRight_eq_div_pow]
  omega

/-- What R51 says of the answer `r` to a word that decodes to `decoded`, between the states `s` and `t`. -/
structure Answers (decoded : Except DecodeError Instr) (s t : State) (r : Response) : Prop where
  commands : t.commands = s.commands
  responses : t.responses = s.responses ++ [r]
  notPerformed : r.status ≠ .ok → SameElements s t ∨ SameElements { s with valid := false } t
  result : decoded = .ok .magnitude ∧ r.status = .ok → r.data.toNat = magnitude s.accX.toInt s.accY.toInt
  noResult : ¬ (decoded = .ok .magnitude ∧ r.status = .ok) → r.data = 0

variable {s t : State} {decoded : Except DecodeError Instr}

/-- An error response that leaves every element as it was. -/
theorem answers_error {st : Status} (h : st ≠ .ok) (s : State) : Answers decoded s (s.respond ⟨st, 0⟩) ⟨st, 0⟩ where
  commands := rfl
  responses := rfl
  notPerformed _ := .inl ⟨rfl, rfl, rfl, rfl, rfl, rfl, rfl, rfl, rfl, rfl, rfl⟩
  result ok := absurd ok.2 h
  noResult _ := rfl

/-- ERR_CONFIG clears VALID and leaves the other elements as they were. -/
theorem answers_errConfig (s : State) :
    Answers decoded s (s.clearValid.respond ⟨.errConfig, 0⟩) ⟨.errConfig, 0⟩ where
  commands := rfl
  responses := rfl
  notPerformed _ := .inr ⟨rfl, rfl, rfl, rfl, rfl, rfl, rfl, rfl, rfl, rfl, rfl⟩
  result ok := nomatch ok.2
  noResult _ := rfl

/-- A command that ends OK and returns no result. -/
theorem answers_okZero (hd : decoded ≠ .ok .magnitude) {u : State} (hc : u.commands = s.commands)
    (hr : u.responses = s.responses) : Answers decoded s (u.respond ⟨.ok, 0⟩) ⟨.ok, 0⟩ where
  commands := hc
  responses := congrArg (· ++ [_]) hr
  notPerformed h := absurd rfl h
  result ok := absurd ok.1 hd
  noResult _ := rfl

/-- A MAGNITUDE that ends OK. -/
theorem answers_magnitude (s : State) :
    Answers (.ok .magnitude) s (s.respond ⟨.ok, BitVec.ofNat 32 (magnitude s.accX.toInt s.accY.toInt)⟩)
      ⟨.ok, BitVec.ofNat 32 (magnitude s.accX.toInt s.accY.toInt)⟩ where
  commands := rfl
  responses := rfl
  notPerformed h := absurd rfl h
  result _ := by simpa using magnitude_lt_two_pow_32 s.accX s.accY
  noResult h := absurd ⟨rfl, rfl⟩ h

/-- Every command that gives a next state answers once, as R51 says. -/
theorem exec_answers {i : Instr} (e : exec i s = .next t) : ∃ r, Answers (.ok i) s t r := by
  rcases exec_cases e with ⟨w, d, rfl, -, rfl⟩ | ⟨w, d, rfl, -, rfl⟩ | ⟨x, p, q, rfl, -, -, rfl⟩ |
    ⟨x, rfl, -, -, rfl⟩ | ⟨rfl, -, rfl⟩ | ⟨-, -, rfl⟩
  · exact ⟨_, answers_okZero (by nofun) rfl rfl⟩
  · exact ⟨_, answers_errConfig s⟩
  · exact ⟨_, answers_okZero (by nofun) rfl rfl⟩
  · exact ⟨_, answers_error (by nofun) s⟩
  · exact ⟨_, answers_magnitude s⟩
  · exact ⟨_, answers_error (by nofun) s⟩

/-- From the invariants every command gives a next state (R22). -/
theorem exec_next_of_inv (h : FilterInv s) (i : Instr) : ∃ t, exec i s = .next t := by
  cases i with
  | construct w d =>
    cases hl : constructLegal w d with
    | true => exact ⟨_, execConstruct_of_legal hl s⟩
    | false => exact ⟨_, execConstruct_of_not_legal hl s⟩
  | update x =>
    cases hv : s.valid with
    | false => exact ⟨_, execUpdate_of_not_valid hv x⟩
    | true =>
      cases hx : sampleLegal x with
      | false => exact ⟨_, execUpdate_of_not_legal hv hx⟩
      | true =>
        obtain ⟨p, q, he, -⟩ := execUpdate_of_inv h hv (sampleLegal_iff.1 hx)
        exact ⟨_, he⟩
  | magnitude =>
    cases hv : s.valid with
    | true => exact ⟨_, execMagnitude_of_valid hv⟩
    | false => exact ⟨_, execMagnitude_of_not_valid hv⟩

/-- The step that takes a word gives a next state and answers the word once, as R51 says. -/
theorem step_answers {rest : List HostEvent} (h : FilterInv s) (hc : s.commands = .command word :: rest) :
    ∃ t r, step s = .next t ∧ Answers (decode word) { s with commands := rest } t r := by
  cases hd : decode word with
  | error e => exact ⟨_, _, step_of_illegal hc hd, answers_error (by nofun) _⟩
  | ok i =>
    obtain ⟨t, he⟩ := exec_next_of_inv (s := { s with commands := rest }) h i
    obtain ⟨r, hr⟩ := exec_answers he
    exact ⟨t, r, (step_of_command hc hd).trans he, hr⟩

/-- Settles O13: from the invariants every word's step completes with one answer, and the codes and the packing are
those of R51's table. -/
theorem everyWordGetsOneResponse : Obligations.EveryWordGetsOneResponse := by
  refine ⟨fun s word rest h hc => ?_, rfl, rfl, rfl, rfl, rfl, Response.packed_toNat⟩
  obtain ⟨t, r, hstep, ans⟩ := step_answers h hc
  exact ⟨t, r, hstep, ans.commands, ans.responses, r.status.code_le_four, ans.notPerformed, ans.result, ans.noResult⟩

end Sys2Proof.Machine

/-! Proofs of the statements about the clock tables (40_clock_tables.md). The generator's series is within 10^-8 of 127
times the cosine (Laws/Clock), so it rounds to the right integer unless 127 times the cosine comes as near as that to a
half-integer. Where it passes each half-integer is listed as a pair of neighbouring Farey fractions, so no entry is
examined by itself. The symmetries and the exact values follow from those of the real functions, because a real number
has one rounding. -/

namespace Sys2Proof.Machine

/-! ### Rounding (R61) -/

/-- A real number has at most one rounding. -/
theorem IsRounding.unique {x : ℝ} {m n : ℤ} (hm : IsRounding x m) (hn : IsRounding x n) : m = n := by
  obtain ⟨m1, m2⟩ := hm
  obtain ⟨n1, n2⟩ := hn
  wlog hlt : m < n generalizing m n
  · rcases lt_trichotomy m n with h | h | h
    · exact absurd h hlt
    · exact h
    · exact (this n1 n2 m1 m2 h).symm
  have step : (m : ℝ) + 1 ≤ n := by exact_mod_cast hlt
  have hm := (abs_le.1 m1).2
  have hn := (abs_le.1 n1).1
  have em : x - m = 1 / 2 := by linarith
  have en : x - n = -(1 / 2) := by linarith
  have farther_m := m2 (by rw [em]; norm_num)
  have farther_n := n2 (by rw [en]; norm_num)
  -- `x` is the midpoint of `m` and `m + 1`, so it cannot be nearer to zero than both.
  rcases le_or_gt 0 m with h0 | h0
  · have h0 : (0 : ℝ) ≤ m := by exact_mod_cast h0
    rw [abs_of_nonneg h0, abs_of_nonneg (by linarith)] at farther_m
    linarith
  · have h0 : (m : ℝ) + 1 ≤ 0 := by exact_mod_cast h0
    rw [abs_of_nonpos (by linarith), abs_of_nonpos (by linarith)] at farther_n
    linarith

theorem isRounding_intCast (n : ℤ) : IsRounding n n := by
  norm_num [IsRounding]

/-- Rounding is odd, because an exact half goes away from zero (R66). -/
theorem IsRounding.neg {x : ℝ} {n : ℤ} (h : IsRounding x n) : IsRounding (-x) (-n) := by
  have e : -x - ((-n : ℤ) : ℝ) = -(x - n) := by push_cast; ring
  rw [IsRounding, e, abs_neg, abs_neg, Int.cast_neg, abs_neg]
  exact h

/-- The integer rounding of the generator is the rounding of the quotient. -/
theorem isRounding_rnd {den : ℤ} (hden : 0 < den) (num : ℤ) :
    IsRounding (num / den : ℝ) (rnd .awayFromZero num den) := by
  have hd : (0 : ℝ) < den := by exact_mod_cast hden
  set q := (2 * num + den) / (2 * den) with hq
  set r := (2 * num + den) % (2 * den) with hr
  have hdiv : 2 * num + den = 2 * den * q + r := (Int.mul_ediv_add_emod _ _).symm
  have hr0 : 0 ≤ r := Int.emod_nonneg _ (by omega)
  have hr1 : r < 2 * den := Int.emod_lt_of_pos _ (by omega)
  have offset : (num / den : ℝ) = q - 1 / 2 + r / (2 * den) := by
    have hdiv : (2 * num + den : ℝ) = 2 * den * q + r := by exact_mod_cast hdiv
    field_simp
    linarith
  rw [rnd, ← hq, ← hr]
  split
  · next tie =>
    rw [offset, tie, Int.cast_zero, zero_div, add_zero, resolveTie]
    split
    · next hpos =>
      have hpos : (1 : ℝ) ≤ q := by exact_mod_cast hpos
      have half : (q : ℝ) - 1 / 2 - q = -(1 / 2) := by ring
      refine ⟨by rw [half]; norm_num, fun _ => ?_⟩
      rw [abs_of_nonneg (by linarith), abs_of_nonneg (by linarith)]
      linarith
    · next hpos =>
      have hpos : (q : ℝ) ≤ 0 := by exact_mod_cast not_lt.1 hpos
      have half : (q : ℝ) - 1 / 2 - ((q - 1 : ℤ) : ℝ) = 1 / 2 := by push_cast; ring
      refine ⟨by rw [half]; norm_num, fun _ => ?_⟩
      push_cast
      rw [abs_of_nonpos (by linarith), abs_of_nonpos (by linarith)]
      linarith
  · next tie =>
    have lo : (0 : ℝ) < r / (2 * den) := by
      have : (0 : ℝ) < r := by exact_mod_cast lt_of_le_of_ne hr0 (Ne.symm tie)
      positivity
    have hi : (r / (2 * den) : ℝ) < 1 := by
      rw [div_lt_one (by positivity)]
      exact_mod_cast hr1
    have near : |(num / den : ℝ) - q| < 1 / 2 := by
      rw [offset, abs_lt]
      constructor <;> linarith
    exact ⟨near.le, fun half => absurd half near.ne⟩

/-- `x` keeps a distance of more than 10^-8 from every half-integer. -/
def AwayFromHalves (x : ℝ) : Prop := ∀ m : ℤ, 1 / 10 ^ 8 < |x - (m + 1 / 2)|

theorem AwayFromHalves.neg {x : ℝ} (h : AwayFromHalves x) : AwayFromHalves (-x) := by
  intro m
  have hm := h (-m - 1)
  push_cast at hm
  rwa [← abs_neg, show -(-x - (m + 1 / 2 : ℝ)) = x - (-m - 1 + 1 / 2) by ring]

/-- No half-integer lies between two numbers that are so close, if one of them keeps away from the half-integers. -/
theorem IsRounding.of_close {x y : ℝ} {n : ℤ} (hy : IsRounding y n) (hxy : |y - x| ≤ 1 / 10 ^ 8)
    (hx : AwayFromHalves x) : IsRounding x n := by
  obtain ⟨y1, y2⟩ := abs_le.1 hy.1
  obtain ⟨c1, c2⟩ := abs_le.1 hxy
  have near : |x - n| < 1 / 2 := by
    rw [abs_lt]
    constructor
    · by_contra hlow
      have := hx (n - 1)
      push_cast at this
      rw [abs_of_nonpos (by linarith)] at this
      linarith
    · by_contra hhigh
      have := hx n
      rw [abs_of_nonneg (by linarith)] at this
      linarith
  exact ⟨near.le, fun half => absurd half near.ne⟩

/-! ### The angle of an entry, and the symmetries of its cosine and sine (R66) -/

/-- The angle of index `i` in a turn of `d` steps. -/
noncomputable def angle (d i : ℕ) : ℝ := 2 * Real.pi * i / d

variable {d i : ℕ}

theorem angle_add (d i j : ℕ) : angle d (i + j) = angle d i + angle d j := by
  unfold angle
  push_cast
  ring

theorem angle_mul_self (hd : 0 < d) (k : ℕ) : angle d (d * k) = k * (2 * Real.pi) := by
  unfold angle
  push_cast
  field_simp

theorem angle_mul_left {m : ℕ} (hm : 0 < m) (d i : ℕ) : angle (m * d) (m * i) = angle d i := by
  have hm : (m : ℝ) ≠ 0 := by exact_mod_cast hm.ne'
  unfold angle
  push_cast
  rw [mul_left_comm, mul_div_mul_left _ _ hm]

/-- A whole number of turns makes no difference. -/
theorem angle_mod (hd : 0 < d) (i : ℕ) : angle d i = angle d (i % d) + (i / d : ℕ) * (2 * Real.pi) := by
  rw [← angle_mul_self hd, ← angle_add, Nat.mod_add_div]

theorem cos_angle_mod (hd : 0 < d) (i : ℕ) : Real.cos (angle d (i % d)) = Real.cos (angle d i) := by
  rw [angle_mod hd i, Real.cos_add_nat_mul_two_pi]

theorem sin_angle_mod (hd : 0 < d) (i : ℕ) : Real.sin (angle d (i % d)) = Real.sin (angle d i) := by
  rw [angle_mod hd i, Real.sin_add_nat_mul_two_pi]

theorem angle_sub (hd : 0 < d) (hi : i ≤ d) : angle d (d - i) = 2 * Real.pi - angle d i := by
  have whole := angle_mul_self hd 1
  rw [mul_one, ← Nat.sub_add_cancel hi, angle_add, Nat.sub_add_cancel hi, Nat.cast_one, one_mul] at whole
  linarith

theorem cos_angle_sub (hd : 0 < d) (hi : i ≤ d) : Real.cos (angle d (d - i)) = Real.cos (angle d i) := by
  rw [angle_sub hd hi, Real.cos_two_pi_sub]

theorem sin_angle_sub (hd : 0 < d) (hi : i ≤ d) : Real.sin (angle d (d - i)) = -Real.sin (angle d i) := by
  rw [angle_sub hd hi, Real.sin_two_pi_sub]

theorem angle_half (hd : 0 < d) (h2 : d % 2 = 0) : angle d (d / 2) = Real.pi := by
  obtain ⟨k, rfl⟩ := Nat.dvd_of_mod_eq_zero h2
  have hk : (k : ℝ) ≠ 0 := by exact_mod_cast (by omega : k ≠ 0)
  rw [Nat.mul_div_cancel_left _ two_pos, angle]
  push_cast
  field_simp

theorem angle_three_quarters (hd : 0 < d) (h4 : d % 4 = 0) : angle d (3 * (d / 4)) = 3 * (Real.pi / 2) := by
  obtain ⟨k, rfl⟩ := Nat.dvd_of_mod_eq_zero h4
  have hk : (k : ℝ) ≠ 0 := by exact_mod_cast (by omega : k ≠ 0)
  rw [Nat.mul_div_cancel_left _ four_pos, angle]
  push_cast
  field_simp
  ring

theorem cos_angle_add_half (hd : 0 < d) (h2 : d % 2 = 0) (i : ℕ) :
    Real.cos (angle d ((i + d / 2) % d)) = -Real.cos (angle d i) := by
  rw [cos_angle_mod hd, angle_add, angle_half hd h2, Real.cos_add_pi]

theorem sin_angle_add_half (hd : 0 < d) (h2 : d % 2 = 0) (i : ℕ) :
    Real.sin (angle d ((i + d / 2) % d)) = -Real.sin (angle d i) := by
  rw [sin_angle_mod hd, angle_add, angle_half hd h2, Real.sin_add_pi]

/-- Three quarters of a turn take the cosine to the sine. -/
theorem cos_angle_add_three_quarters (hd : 0 < d) (h4 : d % 4 = 0) (i : ℕ) :
    Real.cos (angle d ((i + 3 * (d / 4)) % d)) = Real.sin (angle d i) := by
  rw [cos_angle_mod hd, angle_add, angle_three_quarters hd h4,
    show angle d i + 3 * (Real.pi / 2) = angle d i + Real.pi / 2 + Real.pi by ring, Real.cos_add_pi,
    Real.cos_add_pi_div_two, neg_neg]

/-- The sine is the cosine at four times the resolution, at the index the generator reads. -/
theorem cos_angle_four_mul (hd : 0 < d) (i : ℕ) :
    Real.cos (angle (4 * d) ((4 * i + 3 * d) % (4 * d))) = Real.sin (angle d i) := by
  have h := cos_angle_add_three_quarters (d := 4 * d) (by omega) (by omega) (4 * i)
  rwa [Nat.mul_div_cancel_left _ four_pos, angle_mul_left four_pos] at h

/-! ### The half-integers that 127 times the cosine passes in the first quarter of a turn

Between two neighbours of the Farey sequence of order 2048 lies no fraction of a denominator up to 2048. So for each
half-integer it is enough to know the two neighbours between which 127 times the cosine passes it: at every other
fraction of the quarter turn the cosine is at least as far from it as at one of these two. The exception is 63 + 1/2,
which it meets at one sixth of a turn, where the generator does not use the series. -/

/-- An interval `lo.1 / lo.2` to `hi.1 / hi.2` of fractions of a turn. -/
abbrev TurnInterval := (ℕ × ℕ) × (ℕ × ℕ)

/-- No fraction of a denominator up to 2048 lies inside the interval: its ends are neighbours of the Farey sequence. -/
abbrev FareyNeighbours (lo hi : ℕ × ℕ) : Prop := lo.2 * hi.1 = lo.1 * hi.2 + 1 ∧ 2048 < lo.2 + hi.2

/-- The numerator over 10^15 that the generator's series gives for entry `i` of divisor `d`. -/
def seriesEntry (d i : ℕ) : ℤ := clockScale * cosSeries (2 * piScaled * i / d) 40 0 fixedScale 0

/-- Within the interval, which is inside the first quarter of a turn and holds no fraction of a denominator up to 2048
but possibly one sixth, the series passes the half-integer `h + 1/2`, with room on both sides for its error. -/
abbrev Brackets (h : ℕ) (t : TurnInterval) : Prop :=
  (FareyNeighbours t.1 t.2 ∨ (FareyNeighbours t.1 (1, 6) ∧ FareyNeighbours (1, 6) t.2)) ∧
    4 * t.1.1 ≤ t.1.2 ∧ 4 * t.2.1 ≤ t.2.2 ∧ 0 < t.1.2 ∧ 0 < t.2.2 ∧
    (2 * h + 1) * 10 ^ 15 + 6 * 10 ^ 7 ≤ 2 * seriesEntry t.1.2 t.1.1 ∧
    2 * seriesEntry t.2.2 t.2.1 + 6 * 10 ^ 7 ≤ (2 * h + 1) * 10 ^ 15

/-- For each half-integer from 1/2 to 126 + 1/2 in order, where 127 times the cosine passes it. -/
def halfIntervals : List TurnInterval := [
  ((497, 1993), (199, 798)), ((494, 1991), (33, 133)), ((453, 1835), (197, 798)), ((503, 2048), (14, 57)),
  ((444, 1817), (65, 266)), ((238, 979), (335, 1378)), ((230, 951), (371, 1534)), ((307, 1276), (339, 1409)),
  ((174, 727), (421, 1759)), ((484, 2033), (5, 21)), ((391, 1651), (400, 1689)), ((404, 1715), (151, 641)),
  ((56, 239), (463, 1976)), ((464, 1991), (55, 236)), ((35, 151), (471, 2032)), ((219, 950), (293, 1271)),
  ((246, 1073), (293, 1278)), ((443, 1943), (57, 250)), ((229, 1010), (363, 1601)), ((448, 1987), (363, 1610)),
  ((265, 1182), (328, 1463)), ((352, 1579), (387, 1736)), ((303, 1367), (260, 1173)), ((93, 422), (359, 1629)),
  ((39, 178), (445, 2031)), ((22, 101), (435, 1997)), ((411, 1898), (89, 411)), ((189, 878), (299, 1389)),
  ((297, 1388), (248, 1159)), ((238, 1119), (419, 1970)), ((382, 1807), (89, 421)), ((370, 1761), (291, 1385)),
  ((109, 522), (417, 1997)), ((370, 1783), (127, 612)), ((73, 354), (418, 2027)), ((217, 1059), (242, 1181)),
  ((113, 555), (305, 1498)), ((194, 959), (335, 1656)), ((41, 204), (409, 2035)), ((356, 1783), (119, 596)),
  ((383, 1931), (24, 121)), ((304, 1543), (119, 604)), ((109, 557), (318, 1625)), ((255, 1312), (193, 993)),
  ((83, 430), (321, 1663)), ((189, 986), (272, 1419)), ((264, 1387), (331, 1739)), ((333, 1762), (103, 545)),
  ((258, 1375), (343, 1828)), ((19, 102), (372, 1997)), ((76, 411), (331, 1790)), ((29, 158), (357, 1945)),
  ((327, 1795), (280, 1537)), ((337, 1864), (305, 1687)), ((176, 981), (237, 1321)), ((115, 646), (311, 1747)),
  ((343, 1942), (68, 385)), ((338, 1929), (99, 565)), ((223, 1283), (150, 863)), ((341, 1978), (346, 2007)),
  ((86, 503), (291, 1702)), ((265, 1563), (157, 926)), ((233, 1386), (330, 1963)), ((341, 2047), (341, 2045)),
  ((322, 1949), (19, 115)), ((272, 1661), (197, 1203)), ((309, 1904), (68, 419)), ((229, 1424), (142, 883)),
  ((181, 1136), (286, 1795)), ((295, 1869), (149, 944)), ((227, 1452), (169, 1081)), ((146, 943), (231, 1492)),
  ((239, 1559), (174, 1135)), ((197, 1298), (304, 2003)), ((294, 1957), (163, 1085)), ((281, 1890), (208, 1399)),
  ((242, 1645), (79, 537)), ((256, 1759), (287, 1972)), ((113, 785), (207, 1438)), ((279, 1960), (40, 281)),
  ((180, 1279), (199, 1414)), ((53, 381), (281, 2020)), ((51, 371), (266, 1935)), ((201, 1480), (190, 1399)),
  ((266, 1983), (11, 82)), ((20, 151), (271, 2046)), ((253, 1935), (54, 413)), ((261, 2023), (4, 31)),
  ((243, 1909), (118, 927)), ((88, 701), (205, 1633)), ((162, 1309), (187, 1511)), ((5, 41), (246, 2017)),
  ((133, 1107), (232, 1931)), ((53, 448), (201, 1699)), ((17, 146), (233, 2001)), ((37, 323), (233, 2034)),
  ((41, 364), (213, 1891)), ((148, 1337), (89, 804)), ((157, 1444), (76, 699)), ((73, 684), (192, 1799)),
  ((212, 2025), (29, 277)), ((176, 1715), (43, 419)), ((135, 1343), (77, 766)), ((176, 1789), (85, 864)),
  ((134, 1393), (177, 1840)), ((81, 862), (148, 1575)), ((149, 1625), (117, 1276)), ((100, 1119), (179, 2003)),
  ((141, 1621), (139, 1598)), ((35, 414), (169, 1999)), ((121, 1475), (100, 1219)), ((99, 1246), (70, 881)),
  ((139, 1810), (93, 1211)), ((113, 1526), (115, 1553)), ((137, 1924), (23, 323)), ((89, 1304), (66, 967)),
  ((125, 1918), (32, 491)), ((7, 113), (120, 1937)), ((13, 222), (118, 2015)), ((99, 1801), (73, 1328)),
  ((83, 1623), (74, 1447)), ((11, 234), (92, 1957)), ((15, 353), (77, 1812)), ((67, 1789), (10, 267)),
  ((13, 411), (57, 1802)), ((44, 1797), (25, 1021)), ((14, 991), (23, 1628))]

theorem halfIntervals_bracket : ∀ h < 127, Brackets h (halfIntervals.getD h default) := by decide +kernel

variable {p q : ℕ}

/-- A fraction that avoids the inside of a Farey interval is on one side of it. -/
theorem FareyNeighbours.outside {lo hi : ℕ × ℕ} (h : FareyNeighbours lo hi) (hq : q ≤ 2048) :
    p * lo.2 ≤ lo.1 * q ∨ hi.1 * q ≤ p * hi.2 := by
  obtain ⟨adjacent, large⟩ := h
  by_contra hinside
  obtain ⟨left, right⟩ := not_or.1 hinside
  have left : lo.1 * q + 1 ≤ p * lo.2 := not_le.1 left
  have right : p * hi.2 + 1 ≤ hi.1 * q := not_le.1 right
  have sum : lo.2 + hi.2 ≤ q := by
    have det : q * (lo.2 * hi.1) = q * (lo.1 * hi.2) + q := by rw [adjacent]; ring
    nlinarith [Nat.mul_le_mul_left lo.2 right, Nat.mul_le_mul_left hi.2 left]
  omega

theorem Brackets.outside {h : ℕ} {t : TurnInterval} (ht : Brackets h t) (hq : q ≤ 2048) (hsixth : 6 * p ≠ q) :
    p * t.1.2 ≤ t.1.1 * q ∨ t.2.1 * q ≤ p * t.2.2 := by
  obtain ⟨hfarey | ⟨hleft, hright⟩, -⟩ := ht
  · exact hfarey.outside hq
  · rcases hleft.outside (p := p) hq with h | h
    · exact .inl h
    · rcases hright.outside (p := p) hq with h' | h'
      · omega
      · exact .inr h'

/-- In the first half of a turn a larger fraction has a smaller cosine. -/
theorem cos_angle_le {p' q' : ℕ} (hq : 0 < q) (hq' : 0 < q') (hhalf : 2 * p' ≤ q') (h : p * q' ≤ p' * q) :
    Real.cos (angle q' p') ≤ Real.cos (angle q p) := by
  have hqr : (0 : ℝ) < q := by exact_mod_cast hq
  have hqr' : (0 : ℝ) < q' := by exact_mod_cast hq'
  apply Real.cos_le_cos_of_nonneg_of_le_pi
  · unfold angle
    positivity
  · have hhalf : (2 * p' : ℝ) ≤ q' := by exact_mod_cast hhalf
    rw [angle, div_le_iff₀ hqr']
    nlinarith [Real.pi_pos]
  · have h : (p * q' : ℝ) ≤ p' * q := by exact_mod_cast h
    rw [angle, angle, div_le_div_iff₀ hqr hqr']
    nlinarith [Real.pi_pos]

theorem seriesEntry_close (hi : i < d) :
    |(seriesEntry d i / 10 ^ 15 : ℝ) - 127 * Real.cos (angle d i)| ≤ 1 / 10 ^ 8 := by
  rw [seriesEntry, Int.cast_mul]
  exact series_entry_close hi

/-- At a fraction of the first quarter of a turn 127 times the cosine keeps away from the half-integers it passes. -/
theorem Brackets.away {h : ℕ} {t : TurnInterval} (ht : Brackets h t) (hq : q ≤ 2048) (hquarter : 4 * p ≤ q)
    (hq0 : 0 < q) (hsixth : 6 * p ≠ q) : 1 / 10 ^ 8 < |127 * Real.cos (angle q p) - (h + 1 / 2)| := by
  have side := ht.outside hq hsixth
  obtain ⟨-, quarter1, quarter2, pos1, pos2, above, below⟩ := ht
  rcases side with left | right
  · obtain ⟨lo, hi⟩ := abs_le.1 (seriesEntry_close (d := t.1.2) (i := t.1.1) (by omega))
    have above : ((2 * h + 1) * 10 ^ 15 + 6 * 10 ^ 7 : ℝ) ≤ 2 * seriesEntry t.1.2 t.1.1 := by exact_mod_cast above
    have mono := cos_angle_le hq0 pos1 (by omega) left
    refine lt_of_lt_of_le ?_ (le_abs_self _)
    norm_num at above lo hi ⊢
    linarith
  · obtain ⟨lo, hi⟩ := abs_le.1 (seriesEntry_close (d := t.2.2) (i := t.2.1) (by omega))
    have below : (2 * seriesEntry t.2.2 t.2.1 + 6 * 10 ^ 7 : ℝ) ≤ (2 * h + 1) * 10 ^ 15 := by exact_mod_cast below
    have mono := cos_angle_le pos2 hq0 (by omega) right
    refine lt_of_lt_of_le ?_ (neg_le_abs _)
    norm_num at below lo hi ⊢
    linarith

/-! ### Every entry is a rounded cosine or sine (R60, R61) -/

theorem awayFromHalves_of_quarter (hq : q ≤ 2048) (hq0 : 0 < q) (hquarter : 4 * p ≤ q) (hsixth : 6 * p ≠ q) :
    AwayFromHalves (127 * Real.cos (angle q p)) := by
  have nonneg : 0 ≤ Real.cos (angle q p) := by
    have h := cos_angle_le (p := p) (p' := 1) (q' := 4) hq0 (by omega) (by omega) (by omega)
    rwa [show angle 4 1 = Real.pi / 2 by unfold angle; push_cast; ring, Real.cos_pi_div_two] at h
  have le_one := Real.cos_le_one (angle q p)
  intro m
  rcases lt_or_ge m 0 with hneg | hpos
  · have hneg : (m : ℝ) ≤ -1 := by exact_mod_cast Int.le_sub_one_of_lt hneg
    refine lt_of_lt_of_le ?_ (le_abs_self _)
    linarith
  · lift m to ℕ using hpos
    rcases lt_or_ge m 127 with hm | hm
    · exact (halfIntervals_bracket m hm).away hq hquarter hq0 hsixth
    · have hm : (127 : ℝ) ≤ m := by exact_mod_cast hm
      refine lt_of_lt_of_le ?_ (neg_le_abs _)
      push_cast
      linarith

/-- The second quarter of a turn mirrors the first, at twice the resolution. -/
theorem awayFromHalves_of_half (hq : q ≤ 1024) (hq0 : 0 < q) (hhalf : 2 * p ≤ q) (hsixth : 6 * p ≠ q)
    (hthird : 3 * p ≠ q) : AwayFromHalves (127 * Real.cos (angle q p)) := by
  rcases le_or_gt (4 * p) q with hquarter | hquarter
  · exact awayFromHalves_of_quarter (by omega) hq0 hquarter hsixth
  · have h := awayFromHalves_of_quarter (q := 2 * q) (p := q - 2 * p) (by omega) (by omega) (by omega) (by omega)
    have mirror := angle_add (2 * q) (q - 2 * p) (2 * p)
    have half := angle_half (d := 2 * q) (by omega) (by omega)
    rw [Nat.mul_div_cancel_left _ two_pos] at half
    rw [Nat.sub_add_cancel hhalf, half, angle_mul_left two_pos] at mirror
    rw [show angle (2 * q) (q - 2 * p) = Real.pi - angle q p by linarith, Real.cos_pi_sub] at h
    simpa using h.neg

/-- Off the sixths of a turn 127 times the cosine keeps away from the half-integers (R65). -/
theorem awayFromHalves (hq : q ≤ 1024) (hp : p < q) (hsixths : 6 * p % q ≠ 0) :
    AwayFromHalves (127 * Real.cos (angle q p)) := by
  have no_sixth : ∀ k, 6 * p ≠ q * k := fun k hk => hsixths (by rw [hk, Nat.mul_mod_right])
  have h1 := no_sixth 1
  have h2 := no_sixth 2
  have h4 := no_sixth 4
  have h5 := no_sixth 5
  rcases le_or_gt (2 * p) q with hhalf | hhalf
  · exact awayFromHalves_of_half hq (by omega) hhalf (by omega) (by omega)
  · rw [← cos_angle_sub (by omega) hp.le]
    exact awayFromHalves_of_half hq (by omega) (by omega) (by omega) (by omega)

/-- The cosines of the sixths of a turn are as R65 lists them. -/
theorem cos_sixths {k : ℕ} (hk : k < 6) : Real.cos (k * (Real.pi / 3)) = (twiceCosSixths k : ℝ) / 2 := by
  have third : Real.cos (2 * (Real.pi / 3)) = -(1 / 2) := by
    rw [show 2 * (Real.pi / 3) = Real.pi - Real.pi / 3 by ring, Real.cos_pi_sub, Real.cos_pi_div_three]
  interval_cases k <;> norm_num [twiceCosSixths]
  · exact third
  · rw [show 3 * (Real.pi / 3) = Real.pi by ring, Real.cos_pi]
  · rw [show 4 * (Real.pi / 3) = 2 * Real.pi - 2 * (Real.pi / 3) by ring, Real.cos_two_pi_sub, third]
  · rw [show 5 * (Real.pi / 3) = 2 * Real.pi - Real.pi / 3 by ring, Real.cos_two_pi_sub, Real.cos_pi_div_three]

/-- The cosines of the quarters of a turn are as R65 lists them. -/
theorem cos_quarters {k : ℕ} (hk : k < 4) : Real.cos (k * (Real.pi / 2)) = (cosQuarters k : ℝ) := by
  interval_cases k <;> norm_num [cosQuarters]
  · rw [show 2 * (Real.pi / 2) = Real.pi by ring, Real.cos_pi]
  · rw [show 3 * (Real.pi / 2) = 2 * Real.pi - Real.pi / 2 by ring, Real.cos_two_pi_sub, Real.cos_pi_div_two]

/-- An index that is a whole number of `n`-ths of a turn has the angle of those `n`-ths. -/
theorem angle_of_dvd {n : ℕ} (hn : 0 < n) (hi : i < d) (h : n * i % d = 0) :
    n * i / d < n ∧ angle d i = (n * i / d : ℕ) * (2 * Real.pi / n) := by
  obtain ⟨k, hk⟩ := Nat.dvd_of_mod_eq_zero h
  have hd : 0 < d := by omega
  have hdr : (d : ℝ) ≠ 0 := by exact_mod_cast hd.ne'
  have hnr : (n : ℝ) ≠ 0 := by exact_mod_cast hn.ne'
  have hkr : (n * i : ℝ) = d * k := by exact_mod_cast hk
  rw [hk, Nat.mul_div_cancel_left _ hd, angle]
  refine ⟨?_, ?_⟩
  · have : d * k < d * n := by rw [← hk, mul_comm d]; exact Nat.mul_lt_mul_of_pos_left hi hn
    exact Nat.lt_of_mul_lt_mul_left this
  · field_simp
    linear_combination hkr

/-- The generator rounds 127 times the cosine, for every divisor up to 1024 (R60, R61). -/
theorem isRounding_roundedCos (hd : d ≤ 1024) (hi : i < d) :
    IsRounding (127 * Real.cos (angle d i)) (roundedCos .awayFromZero d i) := by
  unfold roundedCos
  split
  · next sixths =>
    obtain ⟨hk, hangle⟩ := angle_of_dvd (n := 6) (by omega) hi sixths
    have h := isRounding_rnd two_pos (clockScale * twiceCosSixths (6 * i / d))
    rw [hangle, show 2 * Real.pi / ((6 : ℕ) : ℝ) = Real.pi / 3 by push_cast; ring, cos_sixths hk]
    convert h using 1
    push_cast [clockScale]
    ring
  · next no_sixths =>
    split
    · next quarters =>
      obtain ⟨hk, hangle⟩ := angle_of_dvd (n := 4) (by omega) hi quarters
      have h := isRounding_intCast (clockScale * cosQuarters (4 * i / d))
      rw [hangle, show 2 * Real.pi / ((4 : ℕ) : ℝ) = Real.pi / 2 by push_cast; ring, cos_quarters hk]
      convert h using 1
      push_cast [clockScale]
      ring
    · have h := isRounding_rnd (den := fixedScale) (by decide) (seriesEntry d i)
      rw [fixedScale_cast] at h
      exact h.of_close (seriesEntry_close hi) (awayFromHalves hd hi no_sixths)

theorem isRounding_clockCos (hd : d ≤ 256) (hi : i < d) : IsRounding (127 * Real.cos (angle d i)) (clockCos d i) :=
  isRounding_roundedCos (by omega) hi

theorem isRounding_clockSin (hd0 : 0 < d) (hd : d ≤ 256) (i : ℕ) :
    IsRounding (127 * Real.sin (angle d i)) (clockSin d i) := by
  rw [← cos_angle_four_mul hd0]
  exact isRounding_roundedCos (by omega) (Nat.mod_lt _ (by omega))

/-- Settles O30: both tables round the real functions, the sine through the cosine at four times the resolution. -/
theorem clockTablesAreRoundedCosineAndSine : Obligations.ClockTablesAreRoundedCosineAndSine := by
  intro d i hd0 hd hi
  rw [mul_comm _ (127 : ℝ), mul_comm _ (127 : ℝ)]
  exact ⟨isRounding_clockCos hd hi, isRounding_clockSin hd0 hd i⟩

/-! ### Entries are equal where the real values are (R62, R66) -/

theorem clockCos_zero (hd0 : 0 < d) (hd : d ≤ 256) : clockCos d 0 = 127 := by
  have h := isRounding_clockCos hd hd0
  rw [angle, Nat.cast_zero, mul_zero, zero_div, Real.cos_zero, mul_one] at h
  exact h.unique (isRounding_intCast 127)

theorem clockSin_zero (hd0 : 0 < d) (hd : d ≤ 256) : clockSin d 0 = 0 := by
  have h := isRounding_clockSin hd0 hd 0
  rw [angle, Nat.cast_zero, mul_zero, zero_div, Real.sin_zero, mul_zero] at h
  exact h.unique (by simpa using isRounding_intCast 0)

/-- Settles O33: rounding is odd and its result unique, so the tables have the symmetries of the real functions. -/
theorem clockTableSymmetries : Obligations.ClockTableSymmetries := by
  intro d i hd0 hd _ hi
  have hcos := isRounding_clockCos hd hi
  have hsin := isRounding_clockSin hd0 hd i
  have hcos_neg := hcos.neg
  have hsin_neg := hsin.neg
  rw [← mul_neg] at hcos_neg hsin_neg
  refine ⟨?_, ?_, fun h2 => ⟨?_, ?_⟩, fun h4 => ?_, ?_⟩
  · have h := isRounding_clockCos (i := d - i) hd (by omega)
    rw [cos_angle_sub hd0 hi.le] at h
    exact h.unique hcos
  · have h := isRounding_clockSin hd0 hd (d - i)
    rw [sin_angle_sub hd0 hi.le] at h
    exact h.unique hsin_neg
  · have h := isRounding_clockCos hd (Nat.mod_lt (i + d / 2) hd0)
    rw [cos_angle_add_half hd0 h2] at h
    exact h.unique hcos_neg
  · have h := isRounding_clockSin hd0 hd ((i + d / 2) % d)
    rw [sin_angle_add_half hd0 h2] at h
    exact h.unique hsin_neg
  · have h := isRounding_clockCos hd (Nat.mod_lt (i + 3 * (d / 4)) hd0)
    rw [cos_angle_add_three_quarters hd0 h4] at h
    exact hsin.unique h
  · rw [← cos_angle_four_mul hd0, angle] at hsin
    exact_mod_cast hsin

/-! ### The tables of a configured core (R62) -/

/-- One sample after a construction puts its product with the first table entry into the accumulator. -/
theorem windowedSum_singleton (table : ℕ → ℤ) {w : ℕ} (hw : 1 ≤ w) (d : ℕ) (x : ℤ) :
    windowedSum table w d [x] = x * table 0 := by
  simp [windowedSum, Nat.sub_eq_zero_of_le hw]

/-- The first sample after a construction contributes only to ACC_X. -/
theorem first_update_after_construct {s t : State} {w d x : ℤ} (hw : 1 ≤ w) (hw' : w ≤ 256) (hd : 1 ≤ d)
    (hd' : d ≤ 256) (hx : -128 ≤ x ∧ x ≤ 127) (ht : exec (.construct w d) s = .next t) :
    ∃ u, exec (.update x) t = .next u ∧ u.accX.toInt = 127 * x ∧ u.accY = 0 := by
  change execConstruct w d s = _ at ht
  rw [execConstruct_of_legal (constructLegal_iff.2 ⟨hw, hw', hd, hd'⟩)] at ht
  cases ht
  lift w to ℕ using by omega
  lift d to ℕ using by omega
  norm_cast at hw hw' hd hd'
  have built := (correlates_construct hw hw' hd hd' s).respond ⟨.ok, 0⟩
  obtain ⟨u, hu, hsum, -⟩ := built.execUpdate_legal hx
  have hX := hsum.laneX.sum
  have hY := hsum.laneY.sum
  rw [List.nil_append, windowedSum_singleton _ hw, clockCos_zero hd hd'] at hX
  rw [List.nil_append, windowedSum_singleton _ hw, clockSin_zero hd hd'] at hY
  exact ⟨u, hu, by rw [hX, mul_comm], BitVec.toInt_inj.1 (by simpa using hY)⟩

/-- Settles O31: the range is that of the generator, and entry 0 and divisor 4 are exact values. -/
theorem tableEntriesStayInRange : Obligations.TableEntriesStayInRange := by
  refine ⟨fun s h hv => ⟨fun j hj => ?_, ?_⟩, fun s t w d x hw hw' hd hd' lo hi ht => ?_, by decide, by decide⟩
  · obtain ⟨⟨c1, c2⟩, s1, s2⟩ := clock_bounds h hv hj
    exact ⟨c1, c2, s1, s2⟩
  · obtain ⟨⟨-, -, hd, hd', -⟩, -, -, -, tables⟩ := h hv
    obtain ⟨hcos, hsin⟩ := tables 0 hd
    exact ⟨hcos.trans (clockCos_zero hd hd'), hsin.trans (clockSin_zero hd hd')⟩
  · exact first_update_after_construct hw hw' hd hd' ⟨lo, hi⟩ ht

end Sys2Proof.Machine

/-! Proofs of the statements about CONSTRUCT (41_construct.md): the operands alone decide whether it succeeds (R70), the
filter it builds is that of the operands (R71), and a failure clears VALID and nothing else (R72). -/

namespace Sys2Proof.Machine

/-! ### The operand check decides (R70) -/

theorem constructLegal_eq_false_iff {w d : Int} :
    constructLegal w d = false ↔ w < 1 ∨ 256 < w ∨ d < 1 ∨ 256 < d := by
  rw [← Bool.not_eq_true, constructLegal_iff]
  omega

/-- Settles O18: the model's write for an illegal operand is the clearing of VALID, then the response. -/
theorem failedConstructClearsOnlyValid : Obligations.FailedConstructClearsOnlyValid := fun s _ _ h =>
  execConstruct_of_not_legal (constructLegal_eq_false_iff.2 h) s

/-- Settles O16, by the two results of the operand check; each excludes the other clause's operands. -/
theorem constructChecksOnlyItsOperands : Obligations.ConstructChecksOnlyItsOperands := by
  intro s w d
  cases hl : constructLegal w d with
  | true =>
    have legal := constructLegal_iff.1 hl
    exact ⟨_, .ok, execConstruct_of_legal hl s, rfl, fun _ => ⟨rfl, rfl⟩, fun illegal => by omega⟩
  | false =>
    have illegal := constructLegal_eq_false_iff.1 hl
    exact ⟨_, .errConfig, execConstruct_of_not_legal hl s, rfl, fun legal => by omega, fun _ => ⟨rfl, rfl⟩⟩

/-! ### The filter depends on the operands alone (R71) -/

/-- What lies beyond the filled part of an array is no part of its entries below the length. -/
theorem sameEntries_fill {n k len : Nat} (h : k ≤ len) (value beyond beyond' : Nat → BitVec n) :
    SameEntries k (Bank.fill len value beyond) (Bank.fill len value beyond') := fun j hj => by
  rw [Bank.entry_fill, Bank.entry_fill, if_pos (hj.trans_le h), if_pos (hj.trans_le h)]

/-- Two states, whatever they held, are given the same filter. -/
theorem sameFilter_construct {w d : Nat} (hw : w ≤ 256) (hd : d ≤ 256) (s t : State) :
    SameFilter (s.construct w d) (t.construct w d) := by
  have window : (s.construct w d).window.toNat ≤ w := (configReg_toNat hw).le
  have divisor : (s.construct w d).divisor.toNat ≤ d := (configReg_toNat hd).le
  exact ⟨rfl, rfl, sameEntries_fill divisor _ _ _, sameEntries_fill divisor _ _ _, sameEntries_fill window _ _ _,
    sameEntries_fill window _ _ _, rfl, rfl, rfl, rfl⟩

theorem exec_construct_of_legal {w d : Nat} (hw : 1 ≤ w) (hw' : w ≤ 256) (hd : 1 ≤ d) (hd' : d ≤ 256) (s : State) :
    exec (.construct w d) s = .next ((s.construct w d).respond ⟨.ok, 0⟩) :=
  execConstruct_of_legal (constructLegal_iff.2 (by omega)) s

/-- Settles O17: the new filter meets the closed form of no sample (so R17 to R21, the tables and the zeros), and any
other state is given the same one. -/
theorem constructBuildsTheFilter : Obligations.ConstructBuildsTheFilter := by
  intro w d hw hw' hd hd' s
  lift w to ℕ using by omega
  lift d to ℕ using by omega
  norm_cast at hw hw' hd hd'
  have built := (correlates_construct hw hw' hd hd' s).respond ⟨.ok, 0⟩
  obtain ⟨-, -, -, -, tables⟩ := built.inv built.valid
  rw [TablesGenerated, built.divisor] at tables
  refine ⟨_, exec_construct_of_legal hw hw' hd hd' s, built.valid, congrArg _ built.window, congrArg _ built.divisor,
    fun j hj => tables j (by exact_mod_cast hj), fun j hj => ?_, rfl, rfl, rfl, rfl, rfl, rfl, built.inv,
    fun s' t' he => ?_⟩
  · have inWindow : j.toNat < w := by exact_mod_cast hj
    exact ⟨built.laneX.zeros j (Nat.zero_le _) inWindow, built.laneY.zeros j (Nat.zero_le _) inWindow⟩
  · rw [exec_construct_of_legal hw hw' hd hd' s'] at he
    cases he
    exact sameFilter_construct hw' hd' s s'

end Sys2Proof.Machine

/-! Proofs of the statements about UPDATE (42_update.md): R17 to R21 survive every step (R78), a legal sample has the
exact effect of the seven steps (R75) and leaves no storage on the way (R77), and any other sample changes nothing
(R76). An accepted sample and its invariants are those of `execUpdate_keeps_filterInv`; new here is what lies between
the steps 4 and 5, where a lane's accumulator is the sum of all its entries but the evicted one. -/

namespace Sys2Proof.Machine

variable {s t : State}

/-! ### Every command and every step keeps R17 to R21 (R78) -/

theorem exec_keeps_filterInv {i : Instr} (h : FilterInv s) (e : exec i s = .next t) : FilterInv t := by
  rcases exec_cases e with ⟨w, d, -, hl, rfl⟩ | ⟨_, _, -, -, rfl⟩ | ⟨x, _, _, rfl, hv, hx, -⟩ | ⟨_, -, -, -, rfl⟩ |
    ⟨-, -, rfl⟩ | ⟨-, -, rfl⟩
  case inl =>
    obtain ⟨hw, hw', hd, hd'⟩ := constructLegal_iff.1 hl
    exact filterInv_construct (by omega) (by omega) (by omega) (by omega) s
  case inr.inl => exact fun hv => absurd hv Bool.false_ne_true
  case inr.inr.inl =>
    obtain ⟨p, q, he, -, -, kept⟩ := execUpdate_keeps_filterInv h hv (sampleLegal_iff.1 hx)
    cases he.symm.trans e
    exact kept
  all_goals exact h

/-- Settles O36: waiting and an illegal word change no element, a reset clears VALID, and every command keeps the
invariants; taking the event off the ports is no part of them. -/
theorem everyStepKeepsTheFilterInvariants : Obligations.EveryStepKeepsTheFilterInvariants := by
  intro s t h e
  rcases step_cases e with ⟨-, rfl⟩ | ⟨rest, -, rfl⟩ | ⟨_, rest, _, -, -, rfl⟩ | ⟨_, rest, i, -, -, he⟩
  · exact h
  · exact fun hv => absurd hv Bool.false_ne_true
  · exact h
  · exact exec_keeps_filterInv (s := { s with commands := rest }) h he

/-! ### The effect of an UPDATE (R75, R76) -/

/-- Settles O21: the two lanes' results are exact, and the rest is what the state writes of the seven steps leave. -/
theorem updateAdmitsTheSample : Obligations.UpdateAdmitsTheSample := by
  intro s x h hv lo hi
  obtain ⟨p, q, he, hp, hq, -⟩ := execUpdate_keeps_filterInv h hv ⟨lo, hi⟩
  obtain ⟨⟨w1, w2, d1, d2, -, -⟩, -⟩ := h hv
  refine ⟨_, he, hp.sum, hq.sum, ?writtenX, ?writtenY, fun j hj => ⟨?keptX, ?keptY⟩, nextIndex_toNat _ d1 d2,
    nextIndex_toNat _ w1 w2, rfl, rfl, rfl, rfl, rfl, rfl, rfl, rfl⟩
  case writtenX => simpa using hp.product
  case writtenY => simpa using hq.product
  all_goals simp [hj.symm]

theorem sampleLegal_eq_false_iff {x : Int} : sampleLegal x = false ↔ x < -128 ∨ 127 < x := by
  rw [← Bool.not_eq_true, sampleLegal_iff]
  omega

/-- Settles O22: the domain check fails before any of the seven steps, and the answer is the only write. -/
theorem updateRejectsSampleOutOfDomain : Obligations.UpdateRejectsSampleOutOfDomain := fun _ _ hv hx =>
  execUpdate_of_not_legal hv (sampleLegal_eq_false_iff.2 hx)

/-! ### No step leaves its storage (R77) -/

/-- A sum without one of its entries is a sum of the other `n - 1`. -/
theorem Bank.prefixSum_sub_entry {w : Nat} (a : Bank w) {i : Index} {n : Nat} (hi : i.toNat < n) :
    Bank.prefixSum a n - (Bank.entry a i).toInt =
      ∑ k ∈ (Finset.range n).erase i.toNat, (Bank.entry a (BitVec.ofNat 8 k)).toInt := by
  rw [Bank.prefixSum, Finset.sum_erase_eq_sub (Finset.mem_range.2 hi), BitVec.ofNat_toNat, BitVec.setWidth_eq]

/-- Between the steps 4 and 5 the accumulator is the sum of the `n - 1` entries that stay. -/
theorem LaneSound.natAbs_sub_entry_le {n : Nat} {buf : Bank 16} {acc : Acc} {pos : Index} (h : LaneSound n buf acc)
    (hn : n ≤ 256) (hpos : pos.toNat < n) : (acc.toInt - (Bank.entry buf pos).toInt).natAbs ≤ (n - 1) * 16256 := by
  have bound : ∀ k ∈ (Finset.range n).erase pos.toNat, |(Bank.entry buf (BitVec.ofNat 8 k)).toInt| ≤ 16256 := by
    intro k hk
    have hk := Finset.mem_range.1 (Finset.mem_of_mem_erase hk)
    exact abs_le.2 (h.bounds _ (by simpa [Nat.mod_eq_of_lt (hk.trans_le hn)] using hk))
  have hsum := (Finset.abs_sum_le_sum_abs _ _).trans (Finset.sum_le_card_nsmul _ _ _ bound)
  rw [← Bank.prefixSum_sub_entry buf hpos, ← h.exact_sum, Finset.card_erase_of_mem (Finset.mem_range.2 hpos),
    Finset.card_range, nsmul_eq_mul, Int.abs_eq_natAbs] at hsum
  exact_mod_cast hsum

theorem natAbs_sample_mul_clock_le {x c : Int} (hx : -128 ≤ x ∧ x ≤ 127) (hc : c.natAbs ≤ 127) :
    (x * c).natAbs ≤ 16256 := by
  rw [Int.natAbs_mul]
  exact Nat.mul_le_mul (by omega : x.natAbs ≤ 128) hc

/-- Settles O24: before the command by R17, R18 and R20, between the steps 4 and 5 by the sum of the entries that stay,
and after them by the effect of the command and the invariants it keeps. -/
theorem updateStaysInsideItsStorage : Obligations.UpdateStaysInsideItsStorage := by
  intro s x h hv lo hi
  obtain ⟨⟨-, w2, -, d2, hph, hbp⟩, -, -, ⟨accX, accY⟩, -⟩ := h hv
  obtain ⟨laneX, laneY⟩ := h.lanes hv
  obtain ⟨cosRange, sinRange⟩ := clock_bounds h hv hph
  have cosBound : (Bank.entry s.cos s.phase).toInt.natAbs ≤ 127 := by omega
  have sinBound : (Bank.entry s.sin s.phase).toInt.natAbs ≤ 127 := by omega
  obtain ⟨t, he, sumX, sumY, productX, productY, -, -, -, valid, window, -⟩ := updateAdmitsTheSample s x h hv lo hi
  obtain ⟨-, -, -, accBounds, -⟩ := exec_keeps_filterInv h he (valid.trans hv)
  rw [AccBound, window] at accBounds
  exact ⟨cosBound, sinBound, natAbs_sample_mul_clock_le ⟨lo, hi⟩ cosBound, natAbs_sample_mul_clock_le ⟨lo, hi⟩ sinBound,
    accX, accY, laneX.natAbs_sub_entry_le w2 hbp, laneY.natAbs_sub_entry_le w2 hbp, by omega, by omega, by omega,
    t, he, productX, productY, sumX, sumY, accBounds⟩

end Sys2Proof.Machine

/-! Proofs of the statements about MAGNITUDE (43_magnitude.md): its answer on a configured core (R83, R84), the
equivalent forms of the result (R85), its range (R86) and its distance from the Euclidean length (R87). All of them go
through hi and lo, of which the model's result is the truncation of max(28 × hi + 17 × lo, 32 × hi) / 32. -/

namespace Sys2Proof.Machine

section
variable (x y : Int)

/-! ### The larger and the smaller component -/

theorem magLo_le_magHi : magLo x y ≤ magHi x y := min_le_max

theorem magHi_comm : magHi y x = magHi x y := max_comm _ _

theorem magLo_comm : magLo y x = magLo x y := min_comm _ _

@[simp] theorem magHi_neg_left : magHi (-x) y = magHi x y := by simp [magHi]

@[simp] theorem magLo_neg_left : magLo (-x) y = magLo x y := by simp [magLo]

theorem magHi_eq_zero_iff : magHi x y = 0 ↔ x = 0 ∧ y = 0 := by simp [magHi]

/-- hi and lo are the components up to order and sign. -/
theorem magHi_sq_add_magLo_sq : (magHi x y : ℝ) ^ 2 + (magLo x y : ℝ) ^ 2 = (x : ℝ) ^ 2 + (y : ℝ) ^ 2 := by
  have sq_natAbs (z : Int) : (z.natAbs : ℝ) ^ 2 = (z : ℝ) ^ 2 := by rw [Nat.cast_natAbs, Int.cast_abs, sq_abs]
  rw [← sq_natAbs x, ← sq_natAbs y, magHi, magLo]
  rcases le_total x.natAbs y.natAbs with h | h
  · rw [max_eq_right h, min_eq_left h, add_comm]
  · rw [max_eq_left h, min_eq_right h]

/-! ### The forms of the result (R85) -/

theorem magnitude_eq_div : magnitude x y = max (magOpt1 x y) (magOpt2 x y) / 32 := Nat.shiftRight_eq_div_pow _ 5

/-- The second option divides exactly, so that the truncation is that of the first alone. -/
theorem magnitude_eq_max : magnitude x y = max (magHi x y) ((28 * magHi x y + 17 * magLo x y) / 32) := by
  rw [magnitude_eq_div, magOpt1, magOpt2]
  omega

theorem magOpt2_le_magOpt1_iff : 4 * magHi x y ≤ 17 * magLo x y ↔ magOpt2 x y ≤ magOpt1 x y := by
  rw [magOpt1, magOpt2]
  omega

theorem magnitude_of_le (h : 17 * magLo x y ≤ 4 * magHi x y) : magnitude x y = magHi x y := by
  rw [magnitude_eq_max]
  omega

theorem magnitude_of_lt (h : 4 * magHi x y < 17 * magLo x y) :
    magnitude x y = (28 * magHi x y + 17 * magLo x y) / 32 := by
  rw [magnitude_eq_max]
  omega

theorem magnitude_comm : magnitude y x = magnitude x y := by
  rw [magnitude_eq_max, magnitude_eq_max, magHi_comm, magLo_comm]

theorem magnitude_neg_left : magnitude (-x) y = magnitude x y := by
  rw [magnitude_eq_max, magnitude_eq_max, magHi_neg_left, magLo_neg_left]

theorem magnitude_neg_right : magnitude x (-y) = magnitude x y := by
  rw [magnitude_comm, magnitude_neg_left, magnitude_comm]

theorem magHi_le_magnitude : magHi x y ≤ magnitude x y := by
  rw [magnitude_eq_max]
  exact le_max_left _ _

/-- The result is largest for given hi at lo = hi. -/
theorem magnitude_le : magnitude x y ≤ magHi x y + 13 * magHi x y / 32 := by
  have lo_le := magLo_le_magHi x y
  rw [magnitude_eq_max]
  omega

theorem magnitude_eq_zero_iff : magnitude x y = 0 ↔ x = 0 ∧ y = 0 := by
  have lower := magHi_le_magnitude x y
  have upper := magnitude_le x y
  rw [← magHi_eq_zero_iff]
  omega

theorem magnitude_of_natAbs_eq (h : x.natAbs = y.natAbs) : magnitude x y = 45 * x.natAbs / 32 := by
  have hi : magHi x y = x.natAbs := by rw [magHi, h, max_self]
  have lo : magLo x y = x.natAbs := by rw [magLo, h, min_self]
  rw [magnitude_eq_max, hi, lo]
  omega

/-- Settles O27, by the forms above, which are those of R85 for the model's hi and lo. -/
theorem magnitudeEquivalentForms : Obligations.MagnitudeEquivalentForms := fun x y =>
  ⟨magnitude_eq_max x y, magOpt2_le_magOpt1_iff x y, magnitude_of_le x y, magnitude_of_lt x y, magnitude_neg_left x y,
    magnitude_neg_right x y, magnitude_comm x y, magnitude_eq_zero_iff x y, magHi_le_magnitude x y, magnitude_le x y,
    magnitude_of_natAbs_eq x y⟩

/-! ### The answer (R83, R84) -/

/-- Settles O26: the response of a MAGNITUDE that ends OK holds the whole result (`answers_magnitude`). -/
theorem magnitudeAnswersTheEstimate : Obligations.MagnitudeAnswersTheEstimate := fun s hv =>
  ⟨_, execMagnitude_of_valid hv, ((answers_magnitude s).result ⟨rfl, rfl⟩).trans (magnitude_eq_div _ _)⟩

/-! ### The range (R86) -/

theorem magOpt1_le : magOpt1 x y ≤ 45 * magHi x y := by
  have lo_le := magLo_le_magHi x y
  rw [magOpt1]
  omega

end

/-- R20 with the largest WINDOW. -/
theorem magHi_acc_le {s : State} (h : FilterInv s) (hv : s.valid = true) :
    magHi s.accX.toInt s.accY.toInt ≤ 4161536 := by
  obtain ⟨⟨-, window_le, -⟩, -, -, ⟨accX, accY⟩, -⟩ := h hv
  exact max_le (by omega) (by omega)

/-- Settles O28: lo, the two options and the result are bounded by multiples of hi, and hi by R20. -/
theorem magnitudeStaysInside32Bits : Obligations.MagnitudeStaysInside32Bits := by
  refine ⟨fun s h hv => ?configured, fun x y hi => ?formula⟩
  case configured =>
    have hi := magHi_acc_le h hv
    have opt1 := magOpt1_le s.accX.toInt s.accY.toInt
    have result := magnitude_le s.accX.toInt s.accY.toInt
    have opt2 : magOpt2 s.accX.toInt s.accY.toInt ≤ 133169152 := Nat.mul_le_mul_left 32 hi
    exact ⟨hi, (magLo_le_magHi _ _).trans hi, opt2, by omega, by omega, by omega⟩
  case formula =>
    have opt1 := (magOpt1_le x y).trans (Nat.mul_le_mul_left 45 hi)
    exact ⟨opt1.trans_lt (by decide), (Nat.mul_le_mul_left 32 hi).trans_lt (by decide)⟩

/-! ### The distance from the Euclidean length (R87) -/

section
variable (x y : Int)

/-- The e of R87: the result before the truncation. -/
noncomputable def magEstimate : ℝ := max (28 * magHi x y + 17 * magLo x y : ℝ) (32 * magHi x y) / 32

theorem magnitude_eq_floor : magnitude x y = ⌊magEstimate x y⌋₊ := by
  rw [magnitude_eq_div, ← Nat.floor_div_eq_div (K := ℝ), magEstimate, magOpt1, magOpt2]
  push_cast
  rfl

theorem magEstimate_nonneg : 0 ≤ magEstimate x y :=
  div_nonneg (le_max_of_le_right (by positivity)) (by norm_num)

/-- The lower end is at lo / hi = 4 / 17, where the two options meet; each option is the larger on its side of it. -/
theorem sq_length_le_sq_magEstimate : 17 ^ 2 * ((x : ℝ) ^ 2 + (y : ℝ) ^ 2) ≤ 305 * magEstimate x y ^ 2 := by
  have lo_nonneg : (0 : ℝ) ≤ magLo x y := Nat.cast_nonneg _
  have lo_le : (magLo x y : ℝ) ≤ magHi x y := Nat.cast_le.2 (magLo_le_magHi x y)
  rw [← magHi_sq_add_magLo_sq, magEstimate]
  generalize (magHi x y : ℝ) = hi at *
  generalize (magLo x y : ℝ) = lo at *
  rcases le_total (17 * lo) (4 * hi) with h | h
  · rw [max_eq_right (by linarith), mul_div_cancel_left₀ _ (by norm_num)]
    nlinarith only [mul_self_le_mul_self (by positivity) h]
  · rw [max_eq_left (by linarith), div_pow, mul_div_assoc', le_div_iff₀ (by norm_num)]
    have gap : 0 ≤ (17 * lo - 4 * hi) * (14204 * hi - 12223 * lo) := mul_nonneg (by linarith) (by linarith)
    linarith only [gap]

/-- Cauchy-Schwarz for (28, 17) and (hi, lo); 28² + 17² = 1073, and 32² is less. -/
theorem sq_magEstimate_le_sq_length : (32 * magEstimate x y) ^ 2 ≤ 1073 * ((x : ℝ) ^ 2 + (y : ℝ) ^ 2) := by
  rw [← magHi_sq_add_magLo_sq, magEstimate, mul_div_cancel₀ _ (by norm_num)]
  generalize (magHi x y : ℝ) = hi
  generalize (magLo x y : ℝ) = lo
  rcases max_choice (28 * hi + 17 * lo) (32 * hi) with h | h <;> rw [h]
  · linarith only [sq_nonneg (17 * hi - 28 * lo)]
  · linarith only [sq_nonneg hi, sq_nonneg lo]

theorem length_le_magEstimate : 17 / √305 * √((x : ℝ) ^ 2 + (y : ℝ) ^ 2) ≤ magEstimate x y := by
  rw [div_mul_eq_mul_div, div_le_iff₀ (by positivity), mul_comm (magEstimate x y)]
  refine (sq_le_sq₀ (by positivity) (mul_nonneg (by positivity) (magEstimate_nonneg x y))).1 ?_
  rw [mul_pow, mul_pow, Real.sq_sqrt (by positivity), Real.sq_sqrt (by positivity)]
  exact sq_length_le_sq_magEstimate x y

theorem magEstimate_le_length : magEstimate x y ≤ √1073 / 32 * √((x : ℝ) ^ 2 + (y : ℝ) ^ 2) := by
  rw [div_mul_eq_mul_div, le_div_iff₀' (by norm_num), ← Real.sqrt_mul (by norm_num)]
  exact Real.le_sqrt_of_sq_le (sq_magEstimate_le_sq_length x y)

end

/-- Settles O29: the result is the estimate rounded down, and so less than 1 below it. -/
theorem magnitudeApproximatesTheEuclideanLength : Obligations.MagnitudeApproximatesTheEuclideanLength := by
  intro x y
  rw [magnitude_eq_floor]
  constructor
  · calc 17 / √305 * √((x : ℝ) ^ 2 + (y : ℝ) ^ 2) - 1
        ≤ magEstimate x y - 1 := sub_le_sub_right (length_le_magEstimate x y) 1
      _ < ⌊magEstimate x y⌋₊ := Nat.sub_one_lt_floor _
  · exact (Nat.floor_le (magEstimate_nonneg x y)).trans (magEstimate_le_length x y)

end Sys2Proof.Machine

/-! Proofs of the statements about the error responses (60_exceptions.md): an unconfigured core refuses UPDATE and MAGNITUDE
(R93), a word that is no command is refused before any state is looked at (R94), an error leaves the eleven elements as
they were, but for VALID after ERR_CONFIG (R95), and the status of every word follows the order of tests of R96. -/

namespace Sys2Proof.Machine

variable {s t u : State} {r r' : Response} {word : Word} {rest : List HostEvent}

/-! ### What a response leaves as it was -/

theorem sameElements_respond (r : Response) (s : State) : SameElements s (s.respond r) :=
  ⟨rfl, rfl, rfl, rfl, rfl, rfl, rfl, rfl, rfl, rfl, rfl⟩

/-- The response a step has added is the one it was made to return. -/
theorem eq_of_respond_responses (hu : u.responses = s.responses) (h : (u.respond r').responses = s.responses ++ [r]) :
    r' = r := by
  rw [State.respond_responses, hu] at h
  exact List.singleton_inj.1 (List.append_cancel_left h)

/-! ### Refusals (R93, R94) -/

/-- Settles O23: the test of VALID is the first thing either command does, and the answer is the only write. -/
theorem unconfiguredCoreRefusesUpdateAndMagnitude : Obligations.UnconfiguredCoreRefusesUpdateAndMagnitude :=
  fun _ hv => ⟨execUpdate_of_not_valid hv, execMagnitude_of_not_valid hv⟩

/-- Settles O8: the step takes the word off the port and answers, which touches none of the eleven elements. -/
theorem illegalWordIsAnsweredAndChangesNothing : Obligations.IllegalWordIsAnsweredAndChangesNothing := by
  intro s word rest hc illegal
  cases hd : decode word with
  | ok i => exact absurd hd (illegal i)
  | error e =>
    exact ⟨_, step_of_illegal hc hd, sameElements_respond ⟨.errIllegal, 0⟩ { s with commands := rest }, rfl, rfl, rfl, rfl⟩

/-! ### What an error leaves (R95) -/

/-- What R95 says of a step from `s` to `t` that returned the response `r`: unless the status is OK, no element changed,
but for VALID, which ERR_CONFIG clears. -/
def ErrorEffect (s t : State) (r : Response) : Prop :=
  r.status ≠ .ok →
    (r.status = .errConfig ∧ SameElements { s with valid := false } t) ∨ (r.status ≠ .errConfig ∧ SameElements s t)

theorem errorEffect_of_ok (h : r.status = .ok) : ErrorEffect s t r := fun hr => absurd h hr

theorem errorEffect_clearValid (s : State) : ErrorEffect s (s.clearValid.respond ⟨.errConfig, 0⟩) ⟨.errConfig, 0⟩ :=
  fun _ => .inl ⟨rfl, sameElements_respond _ s.clearValid⟩

theorem errorEffect_respond (h : r.status ≠ .errConfig) (s : State) : ErrorEffect s (s.respond r) r :=
  fun _ => .inr ⟨h, sameElements_respond r s⟩

theorem exec_errorEffect {i : Instr} (e : exec i s = .next t) (hr : t.responses = s.responses ++ [r]) :
    ErrorEffect s t r := by
  rcases exec_cases e with ⟨w, d, -, -, rfl⟩ | ⟨_, _, -, -, rfl⟩ | ⟨x, p, q, -, -, -, rfl⟩ | ⟨_, -, -, -, rfl⟩ |
    ⟨-, -, rfl⟩ | ⟨-, -, rfl⟩ <;> obtain rfl := eq_of_respond_responses (by rfl) hr
  case inl => exact errorEffect_of_ok rfl
  case inr.inl => exact errorEffect_clearValid s
  case inr.inr.inl => exact errorEffect_of_ok rfl
  all_goals exact errorEffect_respond (by nofun) s

/-- Settles O15: waiting and a reset return no response, an illegal word only its answer, and for a command the cases are
those of `exec_errorEffect`. -/
theorem errorsLeaveTheFilterIntact : Obligations.ErrorsLeaveTheFilterIntact := by
  intro s t r e hr
  rcases step_cases e with ⟨-, rfl⟩ | ⟨rest, -, rfl⟩ | ⟨_, rest, _, -, -, rfl⟩ | ⟨_, rest, i, -, -, he⟩
  · simp at hr
  · simp at hr
  · obtain rfl := eq_of_respond_responses (by rfl) hr
    exact errorEffect_respond (by nofun) s
  · exact exec_errorEffect (s := { s with commands := rest }) he hr

/-! ### The order of the tests (R96) -/

/-- The outcome is a next state with one more response than `s` has, of this status. -/
def Responds (o : Host.Outcome State Fault Refusal) (s : State) (st : Status) : Prop :=
  ∃ t r, o = .next t ∧ t.responses = s.responses ++ [r] ∧ r.status = st

/-- CONSTRUCT: the operands alone decide (R70). -/
theorem responds_construct (s : State) (w d : Int) : Responds (exec (.construct w d) s) s
    (if 1 ≤ w ∧ w ≤ 256 ∧ 1 ≤ d ∧ d ≤ 256 then .ok else .errConfig) := by
  simp only [← constructLegal_iff]
  cases hl : constructLegal w d with
  | true => exact ⟨_, _, execConstruct_of_legal hl s, rfl, rfl⟩
  | false => exact ⟨_, _, execConstruct_of_not_legal hl s, rfl, rfl⟩

/-- UPDATE: VALID is tested before the sample, and from the invariants a legal sample is always admitted. -/
theorem responds_update (h : FilterInv s) (x : Int) : Responds (exec (.update x) s) s
    (if s.valid = false then .errNotConfigured else if x < -128 ∨ 127 < x then .errDomain else .ok) := by
  simp only [← sampleLegal_eq_false_iff]
  cases hv : s.valid with
  | false => exact ⟨_, _, execUpdate_of_not_valid hv x, rfl, rfl⟩
  | true =>
    cases hx : sampleLegal x with
    | false => exact ⟨_, _, execUpdate_of_not_legal hv hx, rfl, rfl⟩
    | true =>
      obtain ⟨p, q, he, -⟩ := execUpdate_of_inv h hv (sampleLegal_iff.1 hx)
      exact ⟨_, _, he, rfl, rfl⟩

theorem responds_magnitude (s : State) : Responds (exec .magnitude s) s
    (if s.valid = false then .errNotConfigured else .ok) := by
  cases hv : s.valid with
  | false => exact ⟨_, _, execMagnitude_of_not_valid hv, rfl, rfl⟩
  | true => exact ⟨_, _, execMagnitude_of_valid hv, rfl, rfl⟩

/-- Settles O14: the word is decoded first; then each command's own tests decide, on the state with the word taken off
the port, where the invariants and VALID are as before. -/
theorem statusFollowsThePriorityOfErrors : Obligations.StatusFollowsThePriorityOfErrors := by
  intro s word rest h hc
  cases hd : decode word with
  | error e => exact ⟨_, _, step_of_illegal hc hd, rfl, rfl⟩
  | ok i =>
    rw [step_of_command hc hd]
    cases i with
    | construct w d => exact responds_construct { s with commands := rest } w d
    | update x => exact responds_update (s := { s with commands := rest }) h x
    | magnitude => exact responds_magnitude { s with commands := rest }

end Sys2Proof.Machine

/-! Proofs of the statements about reset and hazards (70_reset_and_hazards.md): a pulse on `rst` forgets the old state
(R105), and a failed rebuild destroys the filter until a CONSTRUCT succeeds (R115). The second turns on one fact about an
unconfigured core: a word that is no legal CONSTRUCT gets an error response that depends on the word alone, and since
VALID is 0 already, clearing it changes nothing either. -/

namespace Sys2Proof.Machine

variable {s : State} {word : Word} {words : List Word} {rest : List HostEvent}

/-! ### A pulse on `rst` (R105) -/

/-- What a pulse leaves depends on nothing but what is the host's and the count of draws. -/
theorem State.pulseReset_congr {s' : State} (hc : s'.commands = s.commands) (hr : s'.responses = s.responses)
    (hd : s'.draws = s.draws) : s'.pulseReset = s.pulseReset := by
  simp only [State.pulseReset, hc, hr, hd]

/-- Settles O10: the step is the pulse on the state with the event taken off the port. -/
theorem resetPulseUnconfiguresAndForgets : Obligations.ResetPulseUnconfiguresAndForgets := by
  refine ⟨rfl, fun s rest hc => ⟨_, step_of_reset hc, rfl, rfl, rfl, fun s' hc' hr hd => ?_⟩⟩
  rw [step_of_reset (hc'.trans hc)]
  exact congrArg Host.Outcome.next (State.pulseReset_congr rfl hr hd)

/-! ### An unconfigured core refuses every word but a legal CONSTRUCT (R115) -/

/-- The status an unconfigured core answers what a word decodes to with, unless it is a CONSTRUCT that succeeds (R72,
R93, R94). -/
def unconfiguredStatus : Except DecodeError Instr → Status
  | .ok (.construct _ _) => .errConfig
  | .ok _ => .errNotConfigured
  | .error _ => .errIllegal

/-- The whole response of an unconfigured core to such a word. -/
def unconfiguredResponse (word : Word) : Response := ⟨unconfiguredStatus (decode word), 0⟩

theorem State.clearValid_of_not_valid (hv : s.valid = false) : s.clearValid = s := by
  rw [State.clearValid, ← hv]

theorem exec_of_not_valid (hv : s.valid = false) {i : Instr}
    (hno : ∀ w d, i = .construct w d → constructLegal w d = false) :
    exec i s = .next (s.respond ⟨unconfiguredStatus (.ok i), 0⟩) := by
  cases i with
  | construct w d =>
    change execConstruct w d s = _
    rw [execConstruct_of_not_legal (hno w d rfl), State.clearValid_of_not_valid hv]
    rfl
  | update x => exact execUpdate_of_not_valid hv x
  | magnitude => exact execMagnitude_of_not_valid hv

theorem step_of_not_valid (hv : s.valid = false) (hc : s.commands = .command word :: rest)
    (hno : ∀ w d, decode word = .ok (.construct w d) → constructLegal w d = false) :
    step s = .next (({ s with commands := rest } : State).respond (unconfiguredResponse word)) := by
  unfold unconfiguredResponse
  cases hd : decode word with
  | error e => exact step_of_illegal hc hd
  | ok i =>
    rw [step_of_command hc hd]
    exact exec_of_not_valid (s := { s with commands := rest }) hv fun w d hi => hno w d (hi ▸ hd)

/-- Over a whole stream only the ports change: the words are taken, and each is answered in order. -/
theorem run_of_not_valid (hv : s.valid = false) (hc : s.commands = words.map HostEvent.command ++ rest)
    (hno : noLegalConstruct words) :
    Host.Core.run core words.length s =
      .next { s with commands := rest, responses := s.responses ++ words.map unconfiguredResponse } := by
  induction words generalizing s with
  | nil =>
    obtain rfl : s.commands = rest := hc
    simp
  | cons word words ih =>
    obtain ⟨hword, hwords⟩ := List.forall_mem_cons.1 hno
    have hstep := step_of_not_valid hv hc fun w d hd => constructLegal_eq_false_iff.2 (hword w d hd)
    rw [List.length_cons, run_succ_of_next _ hstep, ih (by exact hv) (by rfl) hwords]
    simp

/-- Settles O19: the failed CONSTRUCT leaves VALID = 0, and from there the run is that of `run_of_not_valid`. -/
theorem failedRebuildDestroysTheFilter : Obligations.FailedRebuildDestroysTheFilter := by
  intro s t w d words rest illegal he hno hc
  obtain rfl := Host.Outcome.next.inj ((failedConstructClearsOnlyValid s w d illegal).symm.trans he)
  exact ⟨_, run_of_not_valid rfl hc hno, rfl, ⟨rfl, rfl, rfl, rfl, rfl, rfl, rfl, rfl, rfl, rfl, rfl⟩, rfl, rfl⟩

end Sys2Proof.Machine

/-! Proofs of the statements about whole runs (10_state.md section 7, 93_implementation_defined.md U1): no run stops
from the invariants (R22, R102), and no run observes a content the spec leaves unspecified. The second is a simulation:
indistinguishable states have the same outcome at every step. It turns on UPDATE, whose four outcomes on a core with
VALID = 1 are one lemma each, and which reads the arrays only below WINDOW and DIVISOR, where the two states agree. The
same four lemmas say where UPDATE stops by name (log entry 5). -/

namespace Sys2Proof.Machine

variable {s t : State}

/-! ### No run stops (R22, R102) -/

/-- From the invariants every step gives a next state (R102). -/
theorem step_next_of_inv (h : FilterInv s) : ∃ t, step s = .next t := by
  cases hc : s.commands with
  | nil => exact ⟨s, step_of_idle hc⟩
  | cons event rest =>
    cases event with
    | reset => exact ⟨_, step_of_reset hc⟩
    | command word =>
      obtain ⟨t, _, e, -⟩ := step_answers h hc
      exact ⟨t, e⟩

/-- Settles O37, by induction on the number of steps: each one is taken, and keeps the invariants. -/
theorem noRunStopsUnderTheInvariants : Obligations.NoRunStopsUnderTheInvariants := by
  intro s n h
  induction n generalizing s with
  | zero => exact ⟨s, run_zero s, h⟩
  | succ n ih =>
    obtain ⟨s', e⟩ := step_next_of_inv h
    obtain ⟨t, hrun, ht⟩ := ih s' (everyStepKeepsTheFilterInvariants s s' h e)
    exact ⟨t, (run_succ_of_next n e).trans hrun, ht⟩

/-! ### Where UPDATE with a legal sample stops on a core with VALID = 1 (log entry 5)

The fourth outcome, the seven steps, is `execUpdate_of_fits`. -/

section
variable {x : Int}

/-- The result of the lane of COS, XB and ACC_X for a sample, if every value fits. -/
def State.laneX (x : Int) (s : State) : Option (BufEntry × Acc) :=
  laneUpdate x (Bank.entry s.cos s.phase) (Bank.entry s.xb s.bufpos) s.accX

/-- The result of the lane of SIN, YB and ACC_Y for a sample, if every value fits. -/
def State.laneY (x : Int) (s : State) : Option (BufEntry × Acc) :=
  laneUpdate x (Bank.entry s.sin s.phase) (Bank.entry s.yb s.bufpos) s.accY

/-- Both indices are inside their arrays' address spaces (R30). -/
def IndicesInside (s : State) : Prop := s.phase.toNat < s.divisor.toNat ∧ s.bufpos.toNat < s.window.toNat

theorem execUpdate_of_not_configLegal (hv : s.valid = true) (hx : sampleLegal x = true) (hc : s.configLegal = false) :
    execUpdate x s = .refused .configOutOfRange := by
  simp [execUpdate, admitSample, hv, hx, hc]

theorem execUpdate_of_index_outside (hv : s.valid = true) (hx : sampleLegal x = true) (hc : s.configLegal = true)
    (hi : ¬ IndicesInside s) : execUpdate x s = .fault .indexOutOfRange := by
  rcases not_and_or.1 hi with hp | hb
  · simp [execUpdate, admitSample, hv, hx, hc, memRead_of_not_lt _ hp]
  · simp [execUpdate, admitSample, hv, hx, hc, memRead_of_not_lt _ hb]

theorem execUpdate_of_no_fit (hv : s.valid = true) (hx : sampleLegal x = true) (hc : s.configLegal = true)
    (hi : IndicesInside s) (hl : s.laneX x = none ∨ s.laneY x = none) :
    execUpdate x s = .refused .resultOutOfRange := by
  obtain ⟨hp, hb⟩ := hi
  unfold State.laneX State.laneY at hl
  rcases hl with hl | hl
  · simp [execUpdate, admitSample, hv, hx, hc, memRead_of_lt _ hp, memRead_of_lt _ hb, hl]
  · simp [execUpdate, admitSample, hv, hx, hc, memRead_of_lt _ hp, memRead_of_lt _ hb, hl]

/-! ### What keeps two states indistinguishable (R22, U1) -/

theorem Indistinguishable.respond (h : Indistinguishable s t) (r : Response) :
    Indistinguishable (s.respond r) (t.respond r) := by
  obtain ⟨hv, hf, hc, hr⟩ := h
  exact ⟨hv, hf, hc, congrArg (· ++ [r]) hr⟩

/-- Two unconfigured states are indistinguishable when the host's side of them is the same. -/
theorem indistinguishable_of_not_valid (hs : s.valid = false) (ht : t.valid = false) (hc : s.commands = t.commands)
    (hr : s.responses = t.responses) : Indistinguishable s t :=
  ⟨hs.trans ht.symm, fun hv => absurd (hs.symm.trans hv) Bool.false_ne_true, hc, hr⟩

/-- Two states, whatever they held, are indistinguishable after the same legal CONSTRUCT. -/
theorem indistinguishable_construct {w d : Nat} (hw : w ≤ 256) (hd : d ≤ 256) (hc : s.commands = t.commands)
    (hr : s.responses = t.responses) : Indistinguishable (s.construct w d) (t.construct w d) :=
  ⟨rfl, fun _ => sameFilter_construct hw hd s t, hc, hr⟩

theorem sameEntries_memWrite {w n : Nat} {a b : Bank w} (h : SameEntries n a b) (i : Index) (v : BitVec w) :
    SameEntries n (memWrite a i v) (memWrite b i v) := by
  intro j hj
  rw [entry_memWrite, entry_memWrite, h j hj]

/-- The state writes of UPDATE keep two states indistinguishable: they go to the same places. -/
theorem Indistinguishable.writeLanes (h : Indistinguishable s t) (hv : s.valid = true) (p q : BufEntry × Acc) :
    Indistinguishable (s.writeLanes p q) (t.writeLanes p q) := by
  obtain ⟨hvalid, hf, hc, hr⟩ := h
  obtain ⟨hw, hd, hcos, hsin, hxb, hyb, -, -, hp, hb⟩ := hf hv
  refine ⟨hvalid, fun _ => ⟨hw, hd, hcos, hsin, ?_, ?_, rfl, rfl, ?_, ?_⟩, hc, hr⟩
  · rw [State.writeLanes_xb, State.writeLanes_xb, hb]
    exact sameEntries_memWrite hxb _ _
  · rw [State.writeLanes_yb, State.writeLanes_yb, hb]
    exact sameEntries_memWrite hyb _ _
  · rw [State.writeLanes_phase, State.writeLanes_phase, hp, hd]
  · rw [State.writeLanes_bufpos, State.writeLanes_bufpos, hb, hw]

/-! ### Every command has the same outcome on both -/

theorem SameFilter.configLegal (h : SameFilter s t) : s.configLegal = t.configLegal := by
  obtain ⟨hw, hd, -⟩ := h
  rw [State.configLegal, State.configLegal, hw, hd]

theorem SameFilter.indicesInside (h : SameFilter s t) : IndicesInside s ↔ IndicesInside t := by
  obtain ⟨hw, hd, -, -, -, -, -, -, hp, hb⟩ := h
  rw [IndicesInside, IndicesInside, hw, hd, hp, hb]

/-- What an UPDATE reads inside the address spaces is the same, and so are the lanes' results. -/
theorem SameFilter.lanes (h : SameFilter s t) (hi : IndicesInside s) (x : Int) :
    s.laneX x = t.laneX x ∧ s.laneY x = t.laneY x := by
  obtain ⟨-, -, hcos, hsin, hxb, hyb, hax, hay, hp, hb⟩ := h
  obtain ⟨hphase, hbufpos⟩ := hi
  unfold State.laneX State.laneY
  rw [hcos _ hphase, hsin _ hphase, hxb _ hbufpos, hyb _ hbufpos, hax, hay, hp, hb]
  exact ⟨rfl, rfl⟩

/-- A legal sample on a core with VALID = 1: each of the four outcomes is the same on both states. -/
theorem Indistinguishable.execUpdate_legal (h : Indistinguishable s t) (hv : s.valid = true)
    (hx : sampleLegal x = true) : SameOutcome (execUpdate x s) (execUpdate x t) := by
  have ⟨hvalid, hf, _⟩ := h
  have same := hf hv
  have hvt : t.valid = true := hvalid.symm.trans hv
  cases hc : s.configLegal with
  | false =>
    rw [execUpdate_of_not_configLegal hv hx hc, execUpdate_of_not_configLegal hvt hx (same.configLegal.symm.trans hc)]
    rfl
  | true =>
    have hct := same.configLegal.symm.trans hc
    by_cases hi : IndicesInside s
    · have hit := same.indicesInside.1 hi
      obtain ⟨laneX, laneY⟩ := same.lanes hi x
      cases hp : s.laneX x with
      | none =>
        rw [execUpdate_of_no_fit hv hx hc hi (.inl hp),
          execUpdate_of_no_fit hvt hx hct hit (.inl (laneX.symm.trans hp))]
        rfl
      | some p =>
        cases hq : s.laneY x with
        | none =>
          rw [execUpdate_of_no_fit hv hx hc hi (.inr hq),
            execUpdate_of_no_fit hvt hx hct hit (.inr (laneY.symm.trans hq))]
          rfl
        | some q =>
          rw [execUpdate_of_fits hv hx hc hi.1 hi.2 hp hq,
            execUpdate_of_fits hvt hx hct hit.1 hit.2 (laneX.symm.trans hp) (laneY.symm.trans hq)]
          exact (h.writeLanes hv p q).respond _
    · rw [execUpdate_of_index_outside hv hx hc hi, execUpdate_of_index_outside hvt hx hct (mt same.indicesInside.2 hi)]
      rfl

theorem Indistinguishable.execConstruct (h : Indistinguishable s t) (w d : Int) :
    SameOutcome (execConstruct w d s) (execConstruct w d t) := by
  obtain ⟨-, -, hc, hr⟩ := h
  cases hl : constructLegal w d with
  | true =>
    obtain ⟨-, hw, -, hd⟩ := constructLegal_iff.1 hl
    rw [execConstruct_of_legal hl, execConstruct_of_legal hl]
    exact (indistinguishable_construct (by omega) (by omega) hc hr).respond _
  | false =>
    rw [execConstruct_of_not_legal hl, execConstruct_of_not_legal hl]
    exact (indistinguishable_of_not_valid (s := s.clearValid) (t := t.clearValid) rfl rfl hc hr).respond _

theorem Indistinguishable.execUpdate (h : Indistinguishable s t) (x : Int) :
    SameOutcome (execUpdate x s) (execUpdate x t) := by
  have ⟨hvalid, _⟩ := h
  cases hv : s.valid with
  | false =>
    rw [execUpdate_of_not_valid hv, execUpdate_of_not_valid (hvalid.symm.trans hv)]
    exact h.respond _
  | true =>
    cases hx : sampleLegal x with
    | false =>
      rw [execUpdate_of_not_legal hv hx, execUpdate_of_not_legal (hvalid.symm.trans hv) hx]
      exact h.respond _
    | true => exact h.execUpdate_legal hv hx

theorem Indistinguishable.execMagnitude (h : Indistinguishable s t) :
    SameOutcome (execMagnitude s) (execMagnitude t) := by
  have ⟨hvalid, hf, _⟩ := h
  cases hv : s.valid with
  | false =>
    rw [execMagnitude_of_not_valid hv, execMagnitude_of_not_valid (hvalid.symm.trans hv)]
    exact h.respond _
  | true =>
    obtain ⟨-, -, -, -, -, -, hax, hay, -⟩ := hf hv
    rw [execMagnitude_of_valid hv, execMagnitude_of_valid (hvalid.symm.trans hv), hax, hay]
    exact h.respond _

theorem Indistinguishable.exec (h : Indistinguishable s t) (i : Instr) : SameOutcome (exec i s) (exec i t) := by
  cases i with
  | construct w d => exact h.execConstruct w d
  | update x => exact h.execUpdate x
  | magnitude => exact h.execMagnitude

/-! ### Every step and every run has the same outcome on both (U1, U3) -/

theorem Indistinguishable.step (h : Indistinguishable s t) : SameOutcome (step s) (step t) := by
  have ⟨hv, hf, hcs, hr⟩ := h
  cases hc : s.commands with
  | nil =>
    rw [step_of_idle hc, step_of_idle (hcs.symm.trans hc)]
    exact h
  | cons event rest =>
    have hct := hcs.symm.trans hc
    have taken : Indistinguishable { s with commands := rest } { t with commands := rest } := ⟨hv, hf, rfl, hr⟩
    cases event with
    | reset =>
      rw [step_of_reset hc, step_of_reset hct]
      exact indistinguishable_of_not_valid rfl rfl rfl hr
    | command word =>
      cases hd : decode word with
      | error e =>
        rw [step_of_illegal hc hd, step_of_illegal hct hd]
        exact taken.respond _
      | ok i =>
        rw [step_of_command hc hd, step_of_command hct hd]
        exact taken.exec i

/-- Two outcomes that no host can tell apart are next states both, or the same stop. -/
theorem sameOutcome_cases {a b : Host.Outcome State Fault Refusal} (h : SameOutcome a b) :
    (∃ s t, a = .next s ∧ b = .next t ∧ Indistinguishable s t) ∨ (∃ f, a = .fault f ∧ b = .fault f) ∨
      ∃ r, a = .refused r ∧ b = .refused r := by
  match a, b, h with
  | .next s, .next t, h => exact .inl ⟨s, t, rfl, rfl, h⟩
  | .fault f, .fault _, rfl => exact .inr (.inl ⟨f, rfl, rfl⟩)
  | .refused r, .refused _, rfl => exact .inr (.inr ⟨r, rfl, rfl⟩)

/-- Runs have the same outcome if the first steps have, and runs from indistinguishable states. -/
theorem sameOutcome_run_succ {n : Nat} (h : SameOutcome (step s) (step t))
    (ih : ∀ s t, Indistinguishable s t → SameOutcome (Host.Core.run core n s) (Host.Core.run core n t)) :
    SameOutcome (Host.Core.run core (n + 1) s) (Host.Core.run core (n + 1) t) := by
  rcases sameOutcome_cases h with ⟨s', t', es, et, h'⟩ | ⟨f, es, et⟩ | ⟨r, es, et⟩
  · rw [run_succ_of_next n es, run_succ_of_next n et]
    exact ih s' t' h'
  · rw [run_succ_of_fault n es, run_succ_of_fault n et]
    rfl
  · rw [run_succ_of_refused n es, run_succ_of_refused n et]
    rfl

/-- Settles O43, by induction on the number of steps. -/
theorem unspecifiedContentsAreNeverObserved : Obligations.UnspecifiedContentsAreNeverObserved := by
  intro s t n h
  induction n generalizing s t with
  | zero => exact h
  | succ n ih => exact sameOutcome_run_succ h.step ih

/-- Settles O44: the CONSTRUCT makes the two states indistinguishable, whatever they held, and O43 does the rest. -/
theorem constructMakesRunsReproducible : Obligations.ConstructMakesRunsReproducible := by
  intro s t w d rest n hw hw' hd hd' hs ht hr
  have hdec : decode (encode (.construct w d)) = .ok (.construct w d) :=
    decode_encode_construct (by omega) (by omega)
  lift w to ℕ using by omega
  lift d to ℕ using by omega
  norm_cast at hw hw' hd hd'
  refine sameOutcome_run_succ ?_ fun s t => unspecifiedContentsAreNeverObserved s t n
  rw [step_of_command hs hdec, step_of_command (ht.trans hs) hdec, exec_construct_of_legal hw hw' hd hd',
    exec_construct_of_legal hw hw' hd hd']
  exact (indistinguishable_construct (s := { s with commands := rest }) (t := { t with commands := rest }) hw' hd' rfl
    hr.symm).respond _

/-! ### UPDATE stops by name, and elsewhere computes literally (log entry 5) -/

/-- Both lanes complete exactly where the four accumulator values of the steps 4 and 5 fit 32 bits. -/
theorem lanes_fit_iff (hx : -128 ≤ x ∧ x ≤ 127) :
    ((∃ p, s.laneX x = some p) ∧ ∃ q, s.laneY x = some q) ↔
      Fits32 (s.accX.toInt - (Bank.entry s.xb s.bufpos).toInt) ∧
        Fits32 (s.accY.toInt - (Bank.entry s.yb s.bufpos).toInt) ∧
        Fits32 (s.accX.toInt - (Bank.entry s.xb s.bufpos).toInt + x * (Bank.entry s.cos s.phase).toInt) ∧
        Fits32 (s.accY.toInt - (Bank.entry s.yb s.bufpos).toInt + x * (Bank.entry s.sin s.phase).toInt) := by
  unfold State.laneX State.laneY
  rw [exists_laneUpdate_iff hx, exists_laneUpdate_iff hx]
  tauto

/-- A lane's result is exact. -/
theorem laneExact_of_laneUpdate {c : ClockEntry} {o : BufEntry} {a : Acc} {r : BufEntry × Acc}
    (h : laneUpdate x c o a = some r) : LaneExact x c o a r := by
  obtain ⟨product, sum, -⟩ := laneUpdate_eq_some_iff.1 h
  exact ⟨product, sum⟩

/-- Settles O25: the four conditions are those of the four lemmas about UPDATE, in the same order. -/
theorem updateStopsByNameAndElsewhereComputesLiterally :
    Obligations.UpdateStopsByNameAndElsewhereComputesLiterally := by
  intro s x hv lo hi
  have hx : sampleLegal x = true := sampleLegal_iff.2 ⟨lo, hi⟩
  split
  · next hbad =>
    exact execUpdate_of_not_configLegal hv hx (Bool.eq_false_of_not_eq_true (mt configLegal_iff.1 hbad))
  next hconfig =>
  have hc : s.configLegal = true := configLegal_iff.2 (not_not.1 hconfig)
  split
  · next hout => exact execUpdate_of_index_outside hv hx hc fun ⟨hp, hb⟩ => by omega
  next hin =>
  have hp : s.phase.toNat < s.divisor.toNat := by omega
  have hb : s.bufpos.toNat < s.window.toNat := by omega
  split
  · next hover =>
    refine execUpdate_of_no_fit hv hx hc ⟨hp, hb⟩ ?_
    rwa [← lanes_fit_iff ⟨lo, hi⟩, not_and_or, ← Option.isSome_iff_exists, ← Option.isSome_iff_exists,
      Option.not_isSome_iff_eq_none, Option.not_isSome_iff_eq_none] at hover
  · next hfit =>
    obtain ⟨⟨p, hlx⟩, q, hly⟩ := (lanes_fit_iff ⟨lo, hi⟩).2 (not_not.1 hfit)
    have px := laneExact_of_laneUpdate hlx
    have py := laneExact_of_laneUpdate hly
    obtain ⟨w1, w2, d1, d2⟩ := configLegal_iff.1 hc
    refine ⟨_, execUpdate_of_fits hv hx hc hp hb hlx hly, px.sum, py.sum, ?writtenX, ?writtenY,
      fun j hj => ⟨?keptX, ?keptY⟩, nextIndex_toNat _ d1 d2, nextIndex_toNat _ w1 w2, rfl, rfl, rfl, rfl, rfl, rfl, rfl,
      rfl⟩
    case writtenX => simpa using px.product
    case writtenY => simpa using py.product
    all_goals simp [hj.symm]

end

end Sys2Proof.Machine

/-! Proofs of the statements about one step and about what it writes: how a word comes to run (30_encoding.md,
70_reset_and_hazards.md section 2), who writes VALID (R13) and the indices (R16, R112), and what an unconfigured core
keeps (R106). Each writer is found once, for every command, and the step adds only the event it takes off the port. -/

namespace Sys2Proof.Machine

variable {s t : State}

/-! ### The encoding of a command, and the next thing the core runs -/

/-- Settles O4: ten closed evaluations of the decoder. -/
theorem specWordsDecodeAsListed : Obligations.SpecWordsDecodeAsListed := by
  unfold Obligations.SpecWordsDecodeAsListed
  decide

/-- Settles O5: the assembler tests well-formedness, under which decoding undoes encoding. -/
theorem assemblerEncodesOrRefuses : Obligations.AssemblerEncodesOrRefuses := fun i =>
  ⟨fun fits => ⟨by rw [assembleLine, if_pos fits], decode_encode fits⟩,
    fun fails => by rw [assembleLine, if_neg (Bool.not_eq_true _ ▸ fails)]⟩

/-- Settles O6. -/
theorem stepRunsTheDecodedCommand : Obligations.StepRunsTheDecodedCommand := fun _ _ _ _ => step_of_command

theorem withFetchWord_commands (s : State) (word : Word) :
    (s.withFetchWord 32 word.toNat).commands = .command word :: s.commands := by
  rw [State.withFetchWord, State.present_commands, Nat.mod_eq_of_lt word.isLt, BitVec.ofNat_toNat, BitVec.setWidth_eq]

/-- Settles O7: the placed word is the first on the port, it decodes to the command, and taking it off gives the state
back. -/
theorem placedWordRunsNext : Obligations.PlacedWordRunsNext := fun s i fits =>
  step_of_command (withFetchWord_commands s (encode i)) (decode_encode fits)

/-- Settles O9. -/
theorem idleStepChangesNothing : Obligations.IdleStepChangesNothing := fun _ => step_of_idle

/-- Settles O12: waiting and a reset answer nothing, an illegal word and every command answer once. -/
theorem stepTakesOneEventInOrder : Obligations.StepTakesOneEventInOrder := by
  intro s t e
  rcases step_cases e with ⟨hc, rfl⟩ | ⟨rest, hc, rfl⟩ | ⟨_, rest, _, hc, -, rfl⟩ | ⟨_, rest, i, hc, -, he⟩ <;> rw [hc]
  · exact ⟨rfl, [], (List.append_nil _).symm, Nat.zero_le 1⟩
  · exact ⟨rfl, [], (List.append_nil _).symm, Nat.zero_le 1⟩
  · exact ⟨rfl, _, rfl, le_rfl⟩
  · obtain ⟨r, ans⟩ := exec_answers he
    exact ⟨ans.commands, [r], ans.responses, le_rfl⟩

/-! ### Power-up (R105) -/

/-- Settles O11, by the values of the reset state. -/
theorem powerUpLeavesCoreUnconfigured : Obligations.PowerUpLeavesCoreUnconfigured := ⟨rfl, rfl, rfl⟩

/-- Settles O35: the invariants are about configured cores only. -/
theorem filterInvariantsHoldAtReset : Obligations.FilterInvariantsHoldAtReset := fun hv =>
  absurd hv Bool.false_ne_true

/-! ### Who writes VALID (R13) -/

/-- CONSTRUCT writes VALID as its operand check says, and no other command writes it. -/
theorem exec_valid {i : Instr} (e : exec i s = .next t) :
    (∃ w d, i = .construct w d ∧ t.valid = constructLegal w d) ∨ t.valid = s.valid := by
  rcases exec_cases e with ⟨w, d, hi, hl, rfl⟩ | ⟨w, d, hi, hl, rfl⟩ | ⟨_, _, _, -, -, -, rfl⟩ | ⟨_, -, -, -, rfl⟩ |
    ⟨-, -, rfl⟩ | ⟨-, -, rfl⟩
  · exact .inl ⟨w, d, hi, hl.symm⟩
  · exact .inl ⟨w, d, hi, hl.symm⟩
  all_goals exact .inr rfl

/-- A step leaves VALID, or takes a reset, which clears it, or a CONSTRUCT, whose operand check writes it. -/
theorem step_valid (e : step s = .next t) :
    t.valid = s.valid ∨ ((∃ rest, s.commands = .reset :: rest) ∧ t.valid = false) ∨
      ∃ word rest w d, s.commands = .command word :: rest ∧ decode word = .ok (.construct w d) ∧
        t.valid = constructLegal w d := by
  rcases step_cases e with ⟨-, rfl⟩ | ⟨rest, hc, rfl⟩ | ⟨_, _, _, -, -, rfl⟩ | ⟨word, rest, i, hc, hd, he⟩
  · exact .inl rfl
  · exact .inr (.inl ⟨⟨rest, hc⟩, rfl⟩)
  · exact .inl rfl
  · rcases exec_valid he with ⟨w, d, rfl, hw⟩ | hsame
    · exact .inr (.inr ⟨word, rest, w, d, hc, hd, hw⟩)
    · exact .inl hsame

/-- Settles O38: of the writers of VALID only the operand check can set it, and only it and a reset can clear it. -/
theorem validIsWrittenOnlyByResetAndConstruct : Obligations.ValidIsWrittenOnlyByResetAndConstruct := by
  intro s t e
  rcases step_valid e with hsame | ⟨hreset, hclear⟩ | ⟨word, rest, w, d, hc, hd, hwrite⟩
  · exact ⟨fun h0 h1 => by simp [hsame, h0] at h1, fun h1 h0 => by simp [hsame, h1] at h0⟩
  · exact ⟨fun _ h1 => by simp [hclear] at h1, fun _ _ => .inl hreset⟩
  · exact ⟨fun _ h1 => ⟨word, rest, w, d, hc, hd, constructLegal_iff.1 (hwrite.symm.trans h1)⟩,
      fun _ h0 => .inr ⟨word, rest, w, d, hc, hd, constructLegal_eq_false_iff.1 (hwrite.symm.trans h0)⟩⟩

/-- Settles O42: with VALID = 0 a command that is no CONSTRUCT is only answered (`exec_of_not_valid`). -/
theorem unconfiguredCoreChangesOnlyByConstruct : Obligations.UnconfiguredCoreChangesOnlyByConstruct := by
  intro s t hv e
  rcases step_cases e with ⟨-, rfl⟩ | ⟨rest, hc, -⟩ | ⟨_, rest, _, -, -, rfl⟩ | ⟨word, rest, i, hc, hd, he⟩
  · exact .inl ⟨rfl, rfl, rfl, rfl, rfl, rfl, rfl, rfl, rfl, rfl, rfl⟩
  · exact .inr (.inl ⟨rest, hc⟩)
  · exact .inl (sameElements_respond _ { s with commands := rest })
  · by_cases hi : ∃ w d, i = .construct w d
    · obtain ⟨w, d, rfl⟩ := hi
      exact .inr (.inr ⟨word, rest, w, d, hc, hd⟩)
    · rw [exec_of_not_valid (s := { s with commands := rest }) hv fun w d h => absurd ⟨w, d, h⟩ hi] at he
      cases he
      exact .inl (sameElements_respond _ { s with commands := rest })

/-! ### Who writes the indices (R16, R112) -/

/-- What a command that is no CONSTRUCT does to the indices: an accepted sample advances both, any other leaves both. -/
theorem exec_indices {i : Instr} (hi : ∀ w d, i ≠ .construct w d) (e : exec i s = .next t) :
    (∃ x, i = .update x ∧ sampleLegal x = true ∧ t.phase = nextIndex s.phase s.divisor ∧
      t.bufpos = nextIndex s.bufpos s.window) ∨
    ((∀ x, i = .update x → s.valid = true → sampleLegal x = false) ∧ t.phase = s.phase ∧ t.bufpos = s.bufpos) := by
  rcases exec_cases e with ⟨w, d, h, -⟩ | ⟨w, d, h, -⟩ | ⟨x, _, _, rfl, -, hx, rfl⟩ | ⟨x, rfl, -, hx, rfl⟩ |
    ⟨rfl, -, rfl⟩ | ⟨hv, -, rfl⟩
  · exact absurd h (hi w d)
  · exact absurd h (hi w d)
  · exact .inl ⟨x, rfl, hx, rfl, rfl⟩
  · exact .inr ⟨fun y hy _ => by cases hy; exact hx, rfl, rfl⟩
  · exact .inr ⟨nofun, rfl, rfl⟩
  · exact .inr ⟨fun _ _ hv' => absurd (hv.symm.trans hv') Bool.false_ne_true, rfl, rfl⟩

/-- Settles O40: an illegal word moves neither index, and for a command the cases are those of `exec_indices`, with the
moduli in range by R17. -/
theorem phaseAdvancesOncePerAcceptedSample : Obligations.PhaseAdvancesOncePerAcceptedSample := by
  intro s t word rest h hv hc hno e
  obtain ⟨⟨w1, w2, d1, d2, -, -⟩, -⟩ := h hv
  cases hd : decode word with
  | error err =>
    rw [step_of_illegal hc hd] at e
    cases e
    exact ⟨nofun, fun _ => ⟨rfl, rfl⟩⟩
  | ok i =>
    rw [step_of_command hc hd] at e
    rcases exec_indices (fun w d hi => hno w d (hi ▸ hd)) e with ⟨x, rfl, hx, hp, hb⟩ | ⟨rejected, kept⟩
    · refine ⟨fun _ => ⟨hp ▸ nextIndex_toNat _ d1 d2, hb ▸ nextIndex_toNat _ w1 w2⟩, fun out => ?_⟩
      exact nomatch hx.symm.trans (sampleLegal_eq_false_iff.2 (out x rfl))
    · refine ⟨fun ⟨x, hx, inRange⟩ => ?_, fun _ => kept⟩
      cases hx
      exact nomatch (sampleLegal_iff.2 inRange).symm.trans (rejected x rfl hv)

/-- R16: the indices are equal on a configured core with equal moduli. -/
def EqualIndices (s : State) : Prop := s.valid = true → s.window = s.divisor → s.phase = s.bufpos

theorem exec_keeps_equalIndices {i : Instr} (h : EqualIndices s) (e : exec i s = .next t) : EqualIndices t := by
  rcases exec_cases e with ⟨w, d, -, -, rfl⟩ | ⟨_, _, -, -, rfl⟩ | ⟨_, _, _, -, -, -, rfl⟩ | ⟨_, -, -, -, rfl⟩ |
    ⟨-, -, rfl⟩ | ⟨-, -, rfl⟩
  case inl => exact fun _ _ => rfl
  case inr.inl => exact fun hv => absurd hv Bool.false_ne_true
  case inr.inr.inl =>
    intro hv hmod
    exact congrArg₂ nextIndex (h hv hmod) hmod.symm
  all_goals exact h

/-- Settles O41: a CONSTRUCT sets both indices to 0, an accepted sample advances both by the same modulus, and nothing
else writes an index of a configured core. -/
theorem equalModuliKeepTheIndicesEqual : Obligations.EqualModuliKeepTheIndicesEqual := by
  intro s t h e
  rcases step_cases e with ⟨-, rfl⟩ | ⟨rest, -, rfl⟩ | ⟨_, rest, _, -, -, rfl⟩ | ⟨_, rest, i, -, -, he⟩
  · exact h
  · exact fun hv => absurd hv Bool.false_ne_true
  · exact h
  · exact exec_keeps_equalIndices (s := { s with commands := rest }) h he

end Sys2Proof.Machine

/-! Proofs of the statements about the tie rule (R65, D11) and the norm of the reference vector (conflict C1). The tie
rule acts at the sixths of a turn alone, and there only where the cosine is 1/2 or -1/2; the sine reads the cosine at
four times the resolution. -/

namespace Sys2Proof.Machine

variable {d i : ℕ}

/-! ### Where the tie rule matters (R65) -/

/-- At `k` sixths of a turn the generator rounds the exact value. -/
theorem roundedCos_of_sixths {k : ℕ} (hd : 0 < d) (h : 6 * i = d * k) (tie : TieRound) :
    roundedCos tie d i = rnd tie (clockScale * twiceCosSixths k) 2 := by
  rw [roundedCos, h, if_pos (Nat.mul_mod_right d k), Nat.mul_div_cancel_left k hd]

/-- Off the sixths of a turn the generator does not consult the tie rule (log entry 6). -/
theorem roundedCos_of_not_sixths (h : 6 * i % d ≠ 0) (tie tie' : TieRound) :
    roundedCos tie d i = roundedCos tie' d i := by
  rw [roundedCos, roundedCos, if_neg h, if_neg h]

/-- The cosine is 1/2 at one and five sixths of a turn: an exact half above zero. -/
theorem roundedCos_of_sixth (hd : 0 < d) (h : 6 * i = d ∨ 6 * i = 5 * d) :
    roundedCos .awayFromZero d i = 64 ∧ roundedCos .towardZero d i = 63 := by
  rcases h with h | h
  · rw [roundedCos_of_sixths (k := 1) hd (by omega), roundedCos_of_sixths (k := 1) hd (by omega)]
    decide
  · rw [roundedCos_of_sixths (k := 5) hd (by omega), roundedCos_of_sixths (k := 5) hd (by omega)]
    decide

/-- The cosine is -1/2 at one and two thirds of a turn: an exact half below zero. -/
theorem roundedCos_of_third (hd : 0 < d) (h : 3 * i = d ∨ 3 * i = 2 * d) :
    roundedCos .awayFromZero d i = -64 ∧ roundedCos .towardZero d i = -63 := by
  rcases h with h | h
  · rw [roundedCos_of_sixths (k := 2) hd (by omega), roundedCos_of_sixths (k := 2) hd (by omega)]
    decide
  · rw [roundedCos_of_sixths (k := 4) hd (by omega), roundedCos_of_sixths (k := 4) hd (by omega)]
    decide

/-- Everywhere else all tie rules give the same: at no turn and at half a turn the value is an integer. -/
theorem roundedCos_of_no_half (hi : i < d) (h : ¬ (6 * i = d ∨ 6 * i = 5 * d ∨ 3 * i = d ∨ 3 * i = 2 * d))
    (tie : TieRound) : roundedCos tie d i = roundedCos .awayFromZero d i := by
  have hd : 0 < d := by omega
  by_cases sixths : 6 * i % d = 0
  · obtain ⟨k, hk⟩ := Nat.dvd_of_mod_eq_zero sixths
    have hk6 : k < 6 := by
      by_contra hge
      have := Nat.mul_le_mul_left d (not_lt.1 hge)
      omega
    have whole : k = 0 ∨ k = 3 := by interval_cases k <;> omega
    rw [roundedCos_of_sixths hd hk, roundedCos_of_sixths hd hk]
    rcases whole with rfl | rfl
    · cases tie <;> decide
    · cases tie <;> decide
  · exact roundedCos_of_not_sixths sixths _ _

/-- The index at which the sine reads the cosine, without the reduction. -/
theorem sinIndex_cases (hi : i < d) :
    (4 * i < d ∧ (4 * i + 3 * d) % (4 * d) = 4 * i + 3 * d) ∨
      (d ≤ 4 * i ∧ (4 * i + 3 * d) % (4 * d) = 4 * i - d) := by
  rcases lt_or_ge (4 * i) d with h | h
  · exact .inl ⟨h, Nat.mod_eq_of_lt (by omega)⟩
  · refine .inr ⟨h, ?_⟩
    rw [Nat.mod_eq_sub_mod (by omega), Nat.mod_eq_of_lt (by omega)]
    omega

/-- Settles O32: the places of the cosine are those of the generator, and those of the sine are theirs at the index it
reads at four times the resolution. -/
theorem tieRuleMattersOnlyAtExactHalves : Obligations.TieRuleMattersOnlyAtExactHalves := by
  intro d i hd hi
  have hindex := sinIndex_cases hi
  have hd4 : 0 < 4 * d := by omega
  have hlt : (4 * i + 3 * d) % (4 * d) < 4 * d := Nat.mod_lt _ hd4
  refine ⟨roundedCos_of_sixth hd, roundedCos_of_third hd, fun h => roundedCos_of_sixth hd4 ?_,
    fun h => roundedCos_of_third hd4 ?_, fun tie => ⟨fun h => roundedCos_of_no_half hi h tie,
      fun h => roundedCos_of_no_half hlt ?_ tie⟩⟩
  all_goals omega

/-! ### The norm of the reference vector (C1) -/

/-- Rounding both components of a vector of length 127 moves its length by less than 1: the error vector is no longer
than the square root of 1/2. -/
theorem abs_norm_sub_lt_one {θ : ℝ} {a b : ℤ} (ha : IsRounding (127 * Real.cos θ) a)
    (hb : IsRounding (127 * Real.sin θ) b) : |√((a : ℝ) ^ 2 + (b : ℝ) ^ 2) - 127| < 1 := by
  obtain ⟨a1, a2⟩ := abs_le.1 ha.1
  obtain ⟨b1, b2⟩ := abs_le.1 hb.1
  have unit := Real.cos_sq_add_sin_sq θ
  set c := Real.cos θ
  set s := Real.sin θ
  obtain ⟨e, he⟩ : ∃ e : ℝ, (a : ℝ) = 127 * c + e := ⟨a - 127 * c, by ring⟩
  obtain ⟨f, hf⟩ : ∃ f : ℝ, (b : ℝ) = 127 * s + f := ⟨b - 127 * s, by ring⟩
  have he2 : e ^ 2 ≤ 1 / 4 := by nlinarith
  have hf2 : f ^ 2 ≤ 1 / 4 := by nlinarith
  have cauchy : (c * e + s * f) ^ 2 ≤ 1 / 2 := by
    have identity : (c * e + s * f) ^ 2 + (c * f - s * e) ^ 2 = (c ^ 2 + s ^ 2) * (e ^ 2 + f ^ 2) := by ring
    rw [unit] at identity
    nlinarith [sq_nonneg (c * f - s * e)]
  obtain ⟨inner1, inner2⟩ := abs_le.1 (abs_le_of_sq_le_sq (a := c * e + s * f) (b := 3 / 4) (by linarith) (by norm_num))
  have square : (a : ℝ) ^ 2 + (b : ℝ) ^ 2 = 127 ^ 2 + 254 * (c * e + s * f) + (e ^ 2 + f ^ 2) := by
    rw [he, hf]
    linear_combination 127 ^ 2 * unit
  have lower : 126 < √((a : ℝ) ^ 2 + (b : ℝ) ^ 2) := by
    rw [Real.lt_sqrt (by norm_num), square]
    nlinarith [sq_nonneg e, sq_nonneg f]
  have upper : √((a : ℝ) ^ 2 + (b : ℝ) ^ 2) < 128 := by
    rw [Real.sqrt_lt' (by norm_num), square]
    linarith
  rw [abs_lt]
  constructor <;> linarith

/-- Settles O34: the entries are the roundings of the two components (R60, R61). -/
theorem referenceVectorHasNorm127 : Obligations.ReferenceVectorHasNorm127 := fun _ i hd hd' hi =>
  abs_norm_sub_lt_one (isRounding_clockCos hd' hi) (isRounding_clockSin hd hd' i)

end Sys2Proof.Machine

/-! Proofs of the statements about the filter over time: MAGNITUDE right after a CONSTRUCT answers 0 (R111), WINDOW zero
samples flush the accumulator (R81), and a steady tone holds it (R114). The flush follows the buffer entries it has
overwritten with 0, from any configured core; the tone is the closed form of R23, where what enters the window is what
leaves it. -/

namespace Sys2Proof.Machine

variable {s t : State} {rest : List HostEvent} {n : Nat}

/-! ### MAGNITUDE of an empty accumulator (R111) -/

theorem execMagnitude_of_acc_zero (hv : s.valid = true) (hx : s.accX = 0) (hy : s.accY = 0) :
    execMagnitude s = .next (s.respond ⟨.ok, 0⟩) := by
  have zero : magnitude (0 : Acc).toInt (0 : Acc).toInt = 0 := (magnitude_eq_zero_iff _ _).2 ⟨rfl, rfl⟩
  rw [execMagnitude_of_valid hv, hx, hy, zero]
  rfl

/-- Settles O20: the CONSTRUCT leaves VALID = 1 and both accumulators 0. -/
theorem magnitudeAfterConstructIsZero : Obligations.MagnitudeAfterConstructIsZero := by
  intro s t w d hw hw' hd hd' e
  change execConstruct w d s = _ at e
  rw [execConstruct_of_legal (constructLegal_iff.2 ⟨hw, hw', hd, hd'⟩)] at e
  cases e
  exact execMagnitude_of_acc_zero rfl rfl rfl

/-! ### Commands as the host presents them -/

theorem presented_cons_append (i : Instr) (is : List Instr) (rest : List HostEvent) :
    presented (i :: is) ++ rest = .command (encode i) :: (presented is ++ rest) := rfl

theorem presented_append_append (is js : List Instr) (rest : List HostEvent) :
    presented (is ++ js) ++ rest = presented is ++ (presented js ++ rest) := by
  rw [presented, List.map_append, List.append_assoc]
  rfl

theorem wellFormed_update_of_legal {x : Int} (hx : -128 ≤ x ∧ x ≤ 127) : (Instr.update x).wellFormed = true :=
  (wellFormed_update x).2 (by omega)

/-! ### The zero flush (R81) -/

/-- The core after `n` zero samples from `s`: the indices have advanced by `n`, and the `n` buffer entries from the old
BUFPOS on are 0. -/
structure Flushed (s : State) (n : Nat) (t : State) : Prop where
  inv : FilterInv t
  valid : t.valid = true
  window : t.window = s.window
  divisor : t.divisor = s.divisor
  phase : t.phase.toNat = (s.phase.toNat + n) % s.divisor.toNat
  bufpos : t.bufpos.toNat = (s.bufpos.toNat + n) % s.window.toNat
  zeros : ∀ (j : Index) (k : Nat), k < n → j.toNat = (s.bufpos.toNat + k) % s.window.toNat →
    Bank.entry t.xb j = 0 ∧ Bank.entry t.yb j = 0

theorem flushed_zero (h : FilterInv s) (hv : s.valid = true) : Flushed s 0 s where
  inv := h
  valid := hv
  window := rfl
  divisor := rfl
  phase := by
    obtain ⟨⟨-, -, -, -, hp, -⟩, -⟩ := h hv
    exact (Nat.mod_eq_of_lt hp).symm
  bufpos := by
    obtain ⟨⟨-, -, -, -, -, hb⟩, -⟩ := h hv
    exact (Nat.mod_eq_of_lt hb).symm
  zeros _ k hk := absurd hk (Nat.not_lt_zero k)

/-- The product of a zero sample is the entry 0. -/
theorem LaneExact.fst_eq_zero {c : ClockEntry} {o : BufEntry} {a : Acc} {r : BufEntry × Acc}
    (h : LaneExact 0 c o a r) : r.1 = 0 := by
  apply BitVec.eq_of_toInt_eq
  rw [h.product, zero_mul]
  rfl

/-- One more zero sample. -/
theorem Flushed.execUpdate_zero (h : Flushed s n t) :
    ∃ u, execUpdate 0 t = .next u ∧ Flushed s (n + 1) u ∧ u.commands = t.commands := by
  obtain ⟨p, q, he, hp, hq, hinv⟩ := execUpdate_keeps_filterInv (x := 0) h.inv h.valid (by decide)
  obtain ⟨⟨w1, w2, d1, d2, -, -⟩, -⟩ := h.inv h.valid
  refine ⟨_, he, ⟨hinv, h.valid, h.window, h.divisor, ?_, ?_, fun j k hk hj => ?_⟩, rfl⟩
  · rw [State.respond_phase, State.writeLanes_phase, nextIndex_toNat _ d1 d2, h.phase, h.divisor, Nat.mod_add_mod,
      Nat.add_assoc]
  · rw [State.respond_bufpos, State.writeLanes_bufpos, nextIndex_toNat _ w1 w2, h.bufpos, h.window, Nat.mod_add_mod,
      Nat.add_assoc]
  · rw [State.respond_xb, State.respond_yb, State.writeLanes_xb, State.writeLanes_yb, entry_memWrite, entry_memWrite,
      hp.fst_eq_zero, hq.fst_eq_zero]
    by_cases written : t.bufpos = j
    · rw [if_pos written, if_pos written]
      exact ⟨rfl, rfl⟩
    · rw [if_neg written, if_neg written]
      have earlier : k ≠ n := by
        rintro rfl
        exact written (BitVec.eq_of_toNat_eq (h.bufpos.trans hj.symm))
      exact h.zeros j k (by omega) hj

/-- What the host will still present is no part of the flush. -/
theorem Flushed.setCommands (h : Flushed s n t) (rest : List HostEvent) :
    Flushed s n { t with commands := rest } :=
  ⟨h.inv, h.valid, h.window, h.divisor, h.phase, h.bufpos, h.zeros⟩

theorem Flushed.step (h : Flushed s n t) (hc : t.commands = .command (encode (.update 0)) :: rest) :
    ∃ u, Machine.step t = .next u ∧ Flushed s (n + 1) u ∧ u.commands = rest := by
  obtain ⟨u, he, hu, hcu⟩ := (h.setCommands rest).execUpdate_zero
  exact ⟨u, (step_of_command hc (decode_encode (wellFormed_update_of_legal (by decide)))).trans he, hu, hcu⟩

/-- A run of zero samples to its end. -/
theorem Flushed.run {m : Nat} (h : Flushed s n t)
    (hc : t.commands = presented (List.replicate m (.update 0)) ++ rest) :
    ∃ u, Host.Core.run core m t = .next u ∧ Flushed s (n + m) u ∧ u.commands = rest := by
  induction m generalizing n t with
  | zero => exact ⟨t, rfl, h, hc⟩
  | succ m ih =>
    rw [List.replicate_succ, presented_cons_append] at hc
    obtain ⟨t', hstep, ht', hc'⟩ := h.step hc
    obtain ⟨u, hrun, hu, hcu⟩ := ih ht' hc'
    rw [Nat.add_right_comm] at hu
    exact ⟨u, (run_succ_of_next m hstep).trans hrun, hu, hcu⟩

/-- Every place of a ring of `w` is some number of places below `w` after a given one. -/
theorem exists_ring_offset {w b j : Nat} (hb : b < w) (hj : j < w) : ∃ k < w, j = (b + k) % w := by
  rcases le_or_gt b j with h | h
  · exact ⟨j - b, by omega, by rw [Nat.add_sub_cancel' h, Nat.mod_eq_of_lt hj]⟩
  · refine ⟨j + w - b, by omega, ?_⟩
    rw [Nat.add_sub_cancel' (by omega), Nat.add_mod_right, Nat.mod_eq_of_lt hj]

/-- After WINDOW zero samples every entry below WINDOW is 0. -/
theorem Flushed.entries_zero (h : Flushed s s.window.toNat t) (hb : s.bufpos.toNat < s.window.toNat) (j : Index)
    (hj : j.toNat < s.window.toNat) : Bank.entry t.xb j = 0 ∧ Bank.entry t.yb j = 0 := by
  obtain ⟨k, hk, hjk⟩ := exists_ring_offset hb hj
  exact h.zeros j k hk hjk

/-- An accumulator that is the sum of zeros is 0. -/
theorem LaneSound.acc_eq_zero {w : Nat} {buf : Bank 16} {acc : Acc} (h : LaneSound w buf acc) (hw : w ≤ 256)
    (zeros : ∀ j : Index, j.toNat < w → Bank.entry buf j = 0) : acc = 0 := by
  apply BitVec.eq_of_toInt_eq
  rw [h.exact_sum, Bank.prefixSum_eq_zero hw zeros]
  rfl

theorem Flushed.acc_eq_zero (h : Flushed s s.window.toNat t) (hw : s.window.toNat ≤ 256)
    (hb : s.bufpos.toNat < s.window.toNat) : t.accX = 0 ∧ t.accY = 0 := by
  obtain ⟨laneX, laneY⟩ := h.inv.lanes h.valid
  rw [h.window] at laneX laneY
  exact ⟨laneX.acc_eq_zero hw fun j hj => (h.entries_zero hb j hj).1,
    laneY.acc_eq_zero hw fun j hj => (h.entries_zero hb j hj).2⟩

/-- Settles O46: the run of WINDOW zero samples, then MAGNITUDE of the empty accumulator. -/
theorem zeroSamplesFlushTheAccumulator : Obligations.ZeroSamplesFlushTheAccumulator := by
  intro s rest h hv hc
  obtain ⟨⟨-, hw, -, -, -, hb⟩, -⟩ := h hv
  rw [presented_append_append] at hc
  obtain ⟨t, hrun, ht, hct⟩ := (flushed_zero h hv).run hc
  rw [Nat.zero_add] at ht
  obtain ⟨accX, accY⟩ := ht.acc_eq_zero hw hb
  have hstep := (step_of_command hct (decode_encode rfl)).trans
    (execMagnitude_of_acc_zero (s := { t with commands := rest }) ht.valid accX accY)
  exact ⟨t, _, hrun, accX, accY, ht.phase, hstep, rfl, sameElements_respond _ { t with commands := rest }⟩

/-! ### The steady tone (R114) -/

/-- The words of legal samples feed exactly these samples. -/
theorem acceptedSamples_updates {xs : List Int} (h : ∀ x ∈ xs, -128 ≤ x ∧ x ≤ 127) :
    acceptedSamples (xs.map fun x => encode (.update x)) = xs := by
  induction xs with
  | nil => rfl
  | cons x xs ih =>
    obtain ⟨hx, hxs⟩ := List.forall_mem_cons.1 h
    rw [List.map_cons, acceptedSamples_cons, acceptedSamples_of_update (decode_encode (wellFormed_update_of_legal hx)),
      if_pos (sampleLegal_iff.2 hx), ih hxs]
    rfl

theorem noConstruct_updates {xs : List Int} (h : ∀ x ∈ xs, -128 ≤ x ∧ x ≤ 127) :
    noConstruct (xs.map fun x => encode (.update x)) := by
  intro word hword w d
  obtain ⟨x, hx, rfl⟩ := List.mem_map.1 hword
  rw [decode_encode (wellFormed_update_of_legal (h x hx))]
  nofun

/-- The first `n` samples of an input of period `d`. -/
def tone (f : Nat → Int) (d n : Nat) : List Int := (List.range n).map fun k => f (k % d)

@[simp] theorem tone_length (f : Nat → Int) (d n : Nat) : (tone f d n).length = n := by simp [tone]

theorem tone_succ (f : Nat → Int) (d n : Nat) : tone f d (n + 1) = tone f d n ++ [f (n % d)] := by
  simp [tone, List.range_succ]

theorem tone_getD (f : Nat → Int) (d : Nat) {k : Nat} (hk : k < n) : (tone f d n).getD k 0 = f (k % d) := by
  simp [tone, List.getD, hk]

/-- Once the window is full and holds whole periods, the next sample leaves the windowed sum as it is: it meets the
clock entry that the sample it pushes out has met. -/
theorem windowedSum_tone_succ (table : Nat → Int) (f : Nat → Int) {w d : Nat} (hw : 1 ≤ w) (hdvd : d ∣ w)
    (hn : w ≤ n) : windowedSum table w d (tone f d (n + 1)) = windowedSum table w d (tone f d n) := by
  have samePhase : (n - w) % d = n % d := by
    obtain ⟨c, rfl⟩ := hdvd
    exact Nat.sub_mul_mod hn
  rw [tone_succ, windowedSum_append _ _ hw, evictedTerm, tone_length, if_pos hn, tone_getD f d (by omega), samePhase]
  ring

/-- Settles O47: before and after the sample the accumulators are the windowed sums of R23, which are equal. -/
theorem steadyToneHoldsTheAccumulator : Obligations.SteadyToneHoldsTheAccumulator := by
  intro s w d n f rest hw hw' hd hdvd hn hf hc
  have hd' : d ≤ 256 := (Nat.le_of_dvd hw hdvd).trans hw'
  have legal : ∀ x ∈ tone f d n, -128 ≤ x ∧ x ≤ 127 := by
    intro x hx
    obtain ⟨k, -, rfl⟩ := List.mem_map.1 hx
    exact hf _
  have stream : s.commands = .command (encode (.construct w d)) ::
      (((tone f d n).map fun x => encode (.update x)).map HostEvent.command ++
        .command (encode (.update (f (n % d)))) :: rest) := by
    rw [hc, presented_cons_append, List.range_succ, presented, tone]
    simp
  obtain ⟨s', hstep, hs', hc'⟩ := step_construct_correlates hw hw' hd hd' stream
  obtain ⟨t, hrun, ht, hct⟩ := hs'.run hc' (noConstruct_updates legal)
  rw [List.nil_append, acceptedSamples_updates legal] at ht
  rw [List.length_map, tone_length] at hrun
  have hdec := decode_encode (wellFormed_update_of_legal (hf (n % d)))
  obtain ⟨u, hnext, hu, -⟩ := ht.step hct (by simp [hdec])
  rw [acceptedSamples_of_update hdec, if_pos (sampleLegal_iff.2 (hf _)), ← tone_succ] at hu
  refine ⟨t, u, (run_succ_of_next n hstep).trans hrun, hnext, ?_, ?_⟩ <;> apply BitVec.eq_of_toInt_eq
  · rw [hu.laneX.sum, ht.laneX.sum, windowedSum_tone_succ _ f hw hdvd hn]
  · rw [hu.laneY.sum, ht.laneY.sum, windowedSum_tone_succ _ f hw hdvd hn]

end Sys2Proof.Machine
